-- ==== Sys2Proof/Word.lean ====
section
/-! DEFINITION. The data types of spec/00_scope.md R7 and R14: bytes, 64-bit words, 32-byte blocks.

The arithmetic of R15 (`+64`, `*64`, `-64`, xor, and) is that of `BitVec 64`: `+`, `*`, `-`, `^^^`, `&&&`. -/

namespace Sys2Proof

/-- A `u8` (R14). -/
abbrev Byte := BitVec 8

/-- A `u64` (R14): one flit, one word of the buffer, one element of a generator array. -/
abbrev Word := BitVec 64

/-- A 32-byte block of the state buffer (R7, R53) as one value, byte `t` of the string in bits
`[8t+7 : 8t]` (DESIGN CHOICE, log 17: only the representation; every byte keeps its place). -/
abbrev Block := BitVec 256

end Sys2Proof
end

