-- ==== Sys2Proof/Config.lean ====
section
/-! DEFINITION. The implementation parameters of spec/00_scope.md R9 to R13, which a model takes as
arguments. The block of this package is built with `Config.params`, whose five parts are opaque
constants: no proof can see a value of them, so a theorem about the machine holds for every legal
choice. Every operation that depends on a parameter takes a `Params`, so the same definitions run
with concrete parameters in the tests. -/

namespace Sys2Proof

/-- `WORD_ORDER` (R11): which byte of a word is the least significant. -/
inductive WordOrder where
  | le
  | be
  deriving DecidableEq, Repr, Inhabited

/-- `ABSORB_VARIANT` (R12): how a seed longer than `N` is absorbed. -/
inductive AbsorbVariant where
  | foldAll
  | literal
  deriving DecidableEq, Repr, Inhabited

/-- `DEGEN_UPDATE` (R13): which value of B enters the Diffuser's update. -/
inductive DegenUpdate where
  | original
  | modified
  deriving DecidableEq, Repr, Inhabited

/-- The parameters of one build of the block (R9 to R13). -/
structure Params where
  /-- `HASH256` (R10): any function on 32-byte strings. -/
  hash256 : Block → Block
  /-- `WORD_ORDER` (R11). -/
  wordOrder : WordOrder
  /-- `ABSORB_VARIANT` (R12). -/
  absorbVariant : AbsorbVariant
  /-- `DEGEN_UPDATE` (R13). -/
  degenUpdate : DegenUpdate
  /-- Which of the legal capacities `N_MAX` has (R9): 128, 160, …, 2^32 - 32. -/
  nMaxIndex : Fin 134217724

/-- `N_MAX` (R9): a multiple of 32 with `128 <= N_MAX < 2^32`; every such number is some index's. -/
def Params.nMax (p : Params) : Nat := 128 + 32 * p.nMaxIndex.val

namespace Config

/-- `HASH256` of this build (R10; log 1): open. -/
opaque hash256 : Block → Block

/-- `WORD_ORDER` of this build (R11; log 2): open. -/
opaque wordOrder : WordOrder

/-- `ABSORB_VARIANT` of this build (R12; log 3): open. -/
opaque absorbVariant : AbsorbVariant

/-- `DEGEN_UPDATE` of this build (R13; log 4): open. -/
opaque degenUpdate : DegenUpdate

/-- The index of `N_MAX` of this build (R9; log 5): open. -/
opaque nMaxIndex : Fin 134217724

/-- The parameters the block is built with. -/
def params : Params := ⟨hash256, wordOrder, absorbVariant, degenUpdate, nMaxIndex⟩

end Config

end Sys2Proof
end

