-- ==== Sys2Proof/Machine/State.lean ====
section
/-! DEFINITION. The state of the LMX block (spec/10_state.md), its two ports (spec/30_encoding.md
R70), and the reasons a step can stop. -/

namespace Sys2Proof.Machine

/-- The lifecycle (R20). -/
inductive Life where
  | uninit
  | ready
  deriving DecidableEq, Repr

/-- One flit of a response frame with its LAST marker (R70). -/
structure Flit where
  data : Word
  last : Bool
  deriving DecidableEq, Repr

/-- What reaches the block from outside, in order of arrival: flits on the command port (R70) and the
reset input (R270, R272). -/
inductive PortEvent where
  /-- A command flit with its LAST marker. -/
  | flit (data : Word) (last : Bool)
  /-- Reset asserted, or power lost and restored (R257, R271), while no command executes; a partly
  received frame before it is discarded (R272). -/
  | reset
  /-- Reset asserted while the command whose LAST flit stands just before is executing, after `sent`
  flits of its response had left (R272; which number is open, U12 of 93_implementation_defined.md,
  so it is an input). -/
  | abort (sent : Nat)
  deriving DecidableEq, Repr

/-- One snapshot of the generator bank: six arrays of `W` words and two cursors (R26 to R28). -/
structure Snapshot where
  multX : List Word
  multA : List Word
  multB : List Word
  xorX : List Word
  xorA : List Word
  xorB : List Word
  idxMult : Nat
  idxXor : Nat
  deriving DecidableEq, Repr

/-- A snapshot of a bank of `W = 0` lanes: what the block holds before CONSTRUCT (R38; the cursors'
value is log 9's, DESIGN CHOICE). -/
def Snapshot.empty : Snapshot := ⟨[], [], [], [], [], [], 0, 0⟩

/-- The error codes of the status flit (R240). -/
inductive Code where
  | ok
  | invalidSeed
  | invalidConfig
  | invalidArgument
  | invalidState
  deriving DecidableEq, Repr

/-- The read-only control and status registers (R22). -/
inductive StatusReg where
  | life
  | cfgN
  | nMax
  deriving DecidableEq, Repr

/-- The block. `NMAX` (R22) is hard-wired: a constant of Config, no field. -/
structure State where
  /-- R20. -/
  life : Life
  /-- R21: the buffer size `N` in bytes. -/
  cfgN : BitVec 32
  /-- R25: the state buffer, as the bytes that hold a value, addresses strictly rising. An address
  that is not listed holds no value (R38; log 7). -/
  buf : List Host.Cell
  /-- R26, R27: the current snapshot. -/
  cur : Snapshot
  /-- R28: the previous snapshot. -/
  prev : Snapshot
  /-- The command port and reset input: what has arrived and is not yet processed, oldest first
  (R61, R70, R270). -/
  cmdIn : List PortEvent
  /-- The response port: the response flits sent, oldest first (R70, R84; log 12). -/
  respOut : List Flit
  deriving DecidableEq, Repr

/-- Why a step of the model stops. No state reached from reset raises one: an error of the block is
an ordinary response (R240, R247). -/
inductive Fault where
  /-- A buffer access not inside `0 .. N-1`, raised by `memRead` and `memWrite` (R17, R59; log 22). Safe: the
  model stops where no rule gives an effect. -/
  | outsideBuffer (addr : Nat)
  /-- A read of a buffer byte that holds no value, raised by `memRead` (R38; U1 of
  93_implementation_defined.md asks for a fault). Safe. -/
  | unspecifiedByte (addr : Nat)
  /-- A read or write of an element an array does not have, raised by `readElem` and `writeElem`: the
  arrays have the indices `0 .. W-1` (R26), and none before CONSTRUCT (R38, U1; log 8, 22). Safe. -/
  | absentElement (index : Nat)
  deriving DecidableEq, Repr

/-- Why the model gives an instruction no meaning. -/
inductive Refusal where
  /-- Raised by an arm of `exec` for an instruction the model lacks: none in this package. Safe. -/
  | notModelled (mnemonic : String)
  deriving DecidableEq, Repr

/-- The block right after reset or power-on (R38, R270, R271): UNINIT, size 0, no byte and no element
with a value (log 7, 8), cursors 0 (log 9), nothing on either port (log 10, 12). -/
def State.reset : State where
  life := .uninit
  cfgN := 0
  buf := []
  cur := .empty
  prev := .empty
  cmdIn := []
  respOut := []

end Sys2Proof.Machine
end

