-- ==== Sys2Proof/Machine/Flags.lean ====
section
/-! DEFINITION. The status the block reports. It has no flags or condition codes (spec/10_state.md
R23); what a host sees of an outcome is the status flit (R84) and the registers of R22. -/

namespace Sys2Proof.Machine

/-- The LIFE bit (R20, R22): 0 UNINIT, 1 READY. -/
def lifeBit : Life → Word
  | .uninit => 0
  | .ready => 1

/-- The CODE numbers of R240. -/
def codeNumber : Code → Word
  | .ok => 0
  | .invalidSeed => 1
  | .invalidConfig => 2
  | .invalidArgument => 3
  | .invalidState => 4

/-- The status flit (R84): CODE in bits `[7:0]`, READY in bit 8, zeros above. -/
def statusFlit (c : Code) (l : Life) : Word := codeNumber c ||| (lifeBit l <<< 8)

/-- The status register GET_STATUS returns (R206): LIFE in bit 0, CFG_N in bits `[63:32]`. -/
def statusRegister (l : Word) (n : Word) : Word := (n <<< 32) ||| l

end Sys2Proof.Machine
end

