-- ==== Sys2Proof/Machine/Bytes.lean ====
section
/-! DEFINITION. Byte strings and their packing into bit vectors, first byte least significant
(spec/30_encoding.md R71 for flits; the block representation of `Sys2Proof.Block`). -/

namespace Sys2Proof

/-- The number whose base-256 digits are the bytes, first byte least significant. -/
def bytesToNat : List Byte → Nat
  | [] => 0
  | b :: bs => b.toNat + 256 * bytesToNat bs

/-- A byte string as a `w`-bit value: byte `t` is bits `[8t+7 : 8t]` (R71). -/
def packBytes (w : Nat) (bs : List Byte) : BitVec w := BitVec.ofNat w (bytesToNat bs)

/-- Byte `t` of a packed value: bits `[8t+7 : 8t]` (R71). -/
def byteOf {w : Nat} (v : BitVec w) (t : Nat) : Byte := v.extractLsb' (8 * t) 8

/-- The first `n` bytes of a packed value, byte 0 first (R71). -/
def unpackBytes {w : Nat} (n : Nat) (v : BitVec w) : List Byte := (List.range n).map (byteOf v)

end Sys2Proof
end

