-- ==== Sys2Proof/Machine/Operands.lean ====
section
/-! DEFINITION. The operand forms of the commands: the s64 `amount` of the extractions
(spec/30_encoding.md R76) and the buffer size `N` of CONSTRUCT (R75). -/

namespace Sys2Proof.Machine

/-- `s64(v)` (R14, R76): the two's-complement reading of an operand flit. -/
def s64 (v : Word) : Int := v.toInt

/-- Which buffer sizes CONSTRUCT accepts (R8, R101): the positive multiples of 32 up to `N_MAX`. -/
def legalSize (nMax n : Nat) : Bool := n != 0 && n % 32 == 0 && n ≤ nMax

/-- `W = N/8`, the words of a buffer of `n` bytes (R8). -/
def wordCount (n : Nat) : Nat := n / 8

/-- `M = N/32`, the blocks of a buffer of `n` bytes (R8). -/
def blockCount (n : Nat) : Nat := n / 32

end Sys2Proof.Machine
end

