-- ==== Sys2Proof/Machine/Memory.lean ====
section
/-! DEFINITION. The state buffer and its byte, word and block views (spec/20_memory.md; R17). -/

namespace Sys2Proof.Machine

/-- The bytes that hold a value, addresses strictly rising; an unlisted address holds none (log 7). -/
abbrev Memory := List Host.Cell

/-- The canonical form: addresses strictly rising. No entry can equal what an unlisted address reads
as, since that is no value. -/
abbrev Memory.wf (m : Memory) : Prop := m.Pairwise (fun c d => c.1 < d.1)

/-- The byte at an address, none where no value is held (R38). -/
def readByte : Memory → Nat → Option Byte
  | [], _ => none
  | (b, v) :: rest, a => if a = b then some v else readByte rest a

/-- `buf[a] <- v`, keeping the canonical form. -/
def writeByte : Memory → Nat → Byte → Memory
  | [], a, v => [(a, v)]
  | (b, w) :: rest, a, v =>
    if a < b then (a, v) :: (b, w) :: rest
    else if a = b then (a, v) :: rest
    else (b, w) :: writeByte rest a v

/-- The `k` bytes from `a` on, faulting at the first that holds no value. -/
def readBytes (m : Memory) : Nat → Nat → Except Fault (List Byte)
  | _, 0 => .ok []
  | a, k + 1 =>
    match readByte m a with
    | none => .error (.unspecifiedByte a)
    | some v => (readBytes m (a + 1) k).map (v :: ·)

/-- The bytes `vs` stored from `a` on. -/
def writeBytes (m : Memory) (a : Nat) : List Byte → Memory
  | [] => m
  | v :: vs => writeBytes (writeByte m a v) (a + 1) vs

/-- `MemRead(addr, k)` of R17 in a buffer of `n` bytes: it requires `addr + k <= N`. -/
def memRead (n : Nat) (m : Memory) (addr k : Nat) : Except Fault (List Byte) :=
  if addr + k ≤ n then readBytes m addr k else .error (.outsideBuffer addr)

/-- `MemWrite(addr, len v, v)` of R17 in a buffer of `n` bytes. -/
def memWrite (n : Nat) (m : Memory) (addr : Nat) (v : List Byte) : Except Fault Memory :=
  if addr + v.length ≤ n then .ok (writeBytes m addr v) else .error (.outsideBuffer addr)

/-- `Blk(i)` (R53): the 32 bytes from `32 i`. -/
def readBlock (n : Nat) (m : Memory) (i : Nat) : Except Fault Block :=
  (memRead n m (32 * i) 32).map (packBytes 256)

/-- `MemWrite(32 i, 32, v)` (R123). -/
def writeBlock (n : Nat) (m : Memory) (i : Nat) (v : Block) : Except Fault Memory :=
  memWrite n m (32 * i) (unpackBytes 32 v)

/-- How eight bytes compose a word (R52): byte 0 least significant under LE, most significant under
BE. -/
def composeWord (o : WordOrder) (bs : List Byte) : Word :=
  match o with
  | .le => packBytes 64 bs
  | .be => packBytes 64 bs.reverse

/-- `Word(k)` (R52): the word view of the eight bytes from `8 k`. -/
def readWord (o : WordOrder) (n : Nat) (m : Memory) (k : Nat) : Except Fault Word :=
  (memRead n m (8 * k) 8).map (composeWord o)

/-- `WordView()` (R55): the words `0 .. W-1`. -/
def wordView (o : WordOrder) (n : Nat) (m : Memory) : Except Fault (List Word) :=
  (List.range (wordCount n)).mapM (readWord o n m)

/-- The buffer as READ_STATE returns it (R202): eight bytes a flit, byte `8k + t` in bits
`[8t+7 : 8t]` of flit `k`, whatever `WORD_ORDER` is. -/
def bufferFlits (n : Nat) (m : Memory) : Except Fault (List Word) :=
  (List.range (wordCount n)).mapM fun k => (memRead n m (8 * k) 8).map (packBytes 64)

end Sys2Proof.Machine
end

