-- ==== Sys2Proof/Machine/Ops.lean ====
section
/-! DEFINITION. The operations every command shares: array elements, registers, and the ways a
command ends (spec/30_encoding.md R84, R85; spec/60_exceptions.md). -/

namespace Sys2Proof.Machine

/-- The outcome of a command of this machine. -/
abbrev Result := Host.Outcome State Fault Refusal

/-- `x[i]` of R17 on a generator array. -/
def readElem (xs : List Word) (i : Nat) : Except Fault Word :=
  match xs[i]? with
  | some v => .ok v
  | none => .error (.absentElement i)

/-- `x[i] <- v` of R17 on a generator array. -/
def writeElem (xs : List Word) (i : Nat) (v : Word) : Except Fault (List Word) :=
  if i < xs.length then .ok (xs.set i v) else .error (.absentElement i)

/-- Elements `0 .. w-1` of an array in order, as READ_STATE emits them (R200). -/
def readElems (w : Nat) (xs : List Word) : Except Fault (List Word) :=
  (List.range w).mapM (readElem xs)

/-- The read-only registers of R22, zero-extended to a flit. NMAX is hard-wired. -/
def readStatusReg (p : Params) (s : State) : StatusReg → Word
  | .life => lifeBit s.life
  | .cfgN => s.cfgN.setWidth 64
  | .nMax => (BitVec.ofNat 32 p.nMax).setWidth 64

/-- A frame of the given flit values: LAST is 1 on the final flit only (R70, R85). -/
def frameOf : List Word → List Flit
  | [] => []
  | [v] => [⟨v, true⟩]
  | v :: w :: vs => ⟨v, false⟩ :: frameOf (w :: vs)

/-- One response frame on the response port: the status flit with the lifecycle as it now stands,
then the payload (R84, R85). -/
def respond (c : Code) (payload : List Word) (s : State) : State :=
  { s with respOut := s.respOut ++ frameOf (statusFlit c s.life :: payload) }

/-- A command that succeeds in state `s` with this payload (R85). -/
def complete (payload : List Word) (s : State) : Result := .next (respond .ok payload s)

/-- `raise Error(c)` (R17, R246): THE way an error is taken. Nothing is written; the response is the
status flit alone. There is no trap, nothing is saved and nothing is to be returned from (R242,
R247, R248): the next frame is accepted in the same lifecycle. -/
def raiseError (c : Code) (s : State) : Result := .next (respond c [] s)

/-- A command accepted only when `life` is `l` (R243): otherwise InvalidState. -/
def requireLife (l : Life) (s : State) (body : Result) : Result :=
  if s.life = l then body else raiseError .invalidState s

/-- The response flits a command added between two states. -/
def newFlits (s t : State) : List Flit := t.respOut.drop s.respOut.length

/-- One outcome after another, up to the first stop. -/
def andThen {α β : Type} (r : Host.Outcome α Fault Refusal) (f : α → Host.Outcome β Fault Refusal) :
    Host.Outcome β Fault Refusal :=
  match r with
  | .next a => f a
  | .fault e => .fault e
  | .refused e => .refused e

/-- A command whose internal operation may run into a fault of the model. -/
def whenOk {α : Type} (r : Except Fault α) (body : α → Result) : Result :=
  match r with
  | .ok a => body a
  | .error f => .fault f

end Sys2Proof.Machine
end

