-- ==== Sys2Proof/Machine/Bank.lean ====
section
/-! DEFINITION. CHECKPOINT and RESTORE (spec/45_bank.md). A snapshot is a value, so a copy never
aliases (R30, R191). -/

namespace Sys2Proof.Machine

/-- CHECKPOINT (R190): `prev <- copy(cur)`. -/
def execCheckpoint (s : State) : Result :=
  requireLife .ready s (complete [] { s with prev := s.cur })

/-- RESTORE (R192): `cur <- copy(prev)`. -/
def execRestore (s : State) : Result :=
  requireLife .ready s (complete [] { s with cur := s.prev })

end Sys2Proof.Machine
end

