-- ==== Sys2Proof/Machine/Diffuser.lean ====
section
/-! DEFINITION. The Diffuser (spec/41_diffuser.md): a hash-mixing round over the ring of 32-byte
blocks. Internal to CONSTRUCT (R129). -/

namespace Sys2Proof.Machine

/-- `C` (R120): byte `t` is `t + 1`. -/
def degeneracyConstant : Block := packBytes 256 ((List.range 32).map fun t => BitVec.ofNat 8 (t + 1))

/-- `B'` (R122): B with the constant XORed in when A and B are byte-identical. -/
def breakDegeneracy (a b : Block) : Block := if a = b then b ^^^ degeneracyConstant else b

/-- The value step `i` writes (R124), from the values A and B read at its start (R121). -/
def mixBlocks (p : Params) (a b : Block) : Block :=
  let b' := breakDegeneracy a b
  let bo := match p.degenUpdate with
    | .original => b
    | .modified => b'
  bo ^^^ p.hash256 a ^^^ p.hash256 b' ^^^ a

/-- Step `i` of a round over a buffer of `n` bytes (R121, R123): A and B are values, and block
`(i + 1) mod M` is written once. -/
def ringStep (p : Params) (n : Nat) (m : Memory) (i : Nat) : Except Fault Memory := do
  let k := (i + 1) % blockCount n
  let a ← readBlock n m i
  let b ← readBlock n m k
  writeBlock n m k (mixBlocks p a b)

/-- DiffRound (R123): the steps `0 .. M-1` in order, each seeing the blocks written before it (R127). -/
def diffRound (p : Params) (n : Nat) (m : Memory) : Except Fault Memory :=
  (List.range (blockCount n)).foldlM (ringStep p n) m

/-- NextState (R126): two rounds back to back. -/
def nextState (p : Params) (n : Nat) (m : Memory) : Except Fault Memory := do
  diffRound p n (← diffRound p n m)

end Sys2Proof.Machine
end

