-- ==== Sys2Proof/Machine/Deriver.lean ====
section
/-! DEFINITION. The ParameterDeriver (spec/42_parameter_deriver.md). Internal to CONSTRUCT. -/

namespace Sys2Proof.Machine

/-- The corrective adjustment `v - (v mod m) + c` on `u64` words (R143). -/
def adjust (m c v : Word) : Word := v - v % m + c

/-- One NextState and the word view after it (R141, R142). -/
def nextArray (p : Params) (n : Nat) (m : Memory) : Except Fault (List Word × Memory) := do
  let m' ← nextState p n m
  let view ← wordView p.wordOrder n m'
  return (view, m')

/-- Derive (R140): six NextStates on the one buffer fill the six arrays in order, four of them are
adjusted, and the cursors start at 0 (R145). Answers the current snapshot and the buffer left. -/
def derive (p : Params) (n : Nat) (m : Memory) : Except Fault (Snapshot × Memory) := do
  let (multX, m) ← nextArray p n m
  let (multA, m) ← nextArray p n m
  let (multB, m) ← nextArray p n m
  let (xorX, m) ← nextArray p n m
  let (xorA, m) ← nextArray p n m
  let (xorB, m) ← nextArray p n m
  return ({ multX := multX
            multA := multA.map (adjust 4 1)
            multB := multB.map (adjust 2 1)
            xorX := xorX
            xorA := xorA.map (adjust 2 0)
            xorB := xorB.map (adjust 2 1)
            idxMult := 0
            idxXor := 0 }, m)

end Sys2Proof.Machine
end

