-- ==== Sys2Proof/Machine/Construct.lean ====
section
/-! DEFINITION. CONSTRUCT and the SeedAbsorber (spec/40_construct.md). -/

namespace Sys2Proof.Machine

/-- A window of seed bytes XORed into the first bytes of a buffer (R103). -/
def xorPrefix : List Byte → List Byte → List Byte
  | b :: bs, w :: ws => (b ^^^ w) :: xorPrefix bs ws
  | bs, _ => bs

/-- R103's loop from offset `i`: while `i < L`, XOR the window `seed[i .. i + min(N, L-i) - 1]`. Each
turn moves `i` on by `N >= 1`, so `L` turns of fuel always suffice. -/
def foldAllLoop (n : Nat) (seed : List Byte) : Nat → Nat → List Byte → List Byte
  | 0, _, b => b
  | fuel + 1, i, b =>
    if i < seed.length then
      foldAllLoop n seed fuel (i + n) (xorPrefix b ((seed.drop i).take (min n (seed.length - i))))
    else b

/-- Absorb, variant FOLD_ALL (R103). -/
def absorbFoldAll (n : Nat) (seed : List Byte) : List Byte :=
  foldAllLoop n seed seed.length 0 (List.replicate n 0)

/-- R104's loop from offset `i`: while `i < L - N` (signed), XOR a full window. Answers the buffer and
the last offset. -/
def literalLoop (n : Nat) (seed : List Byte) : Nat → Nat → List Byte → List Byte × Nat
  | 0, i, b => (b, i)
  | fuel + 1, i, b =>
    if (i : Int) < (seed.length : Int) - (n : Int) then
      literalLoop n seed fuel (i + n) (xorPrefix b ((seed.drop i).take n))
    else (b, i)

/-- Absorb, variant LITERAL (R104): after the loop only the case `i = 0` folds anything more. -/
def absorbLiteral (n : Nat) (seed : List Byte) : List Byte :=
  let (b, i) := literalLoop n seed seed.length 0 (List.replicate n 0)
  if i = 0 then xorPrefix b seed else b

/-- Absorb under the build's ABSORB_VARIANT (R12, R100). -/
def absorb (v : AbsorbVariant) (n : Nat) (seed : List Byte) : List Byte :=
  match v with
  | .foldAll => absorbFoldAll n seed
  | .literal => absorbLiteral n seed

/-- The body of R100 after its checks: absorb into `buf[0 .. N-1]`, derive, become READY; `prev` is a
value copy of `cur` (R146). -/
def initialise (p : Params) (n : Word) (seed : List Byte) (s : State) : Except Fault State := do
  let m ← memWrite n.toNat s.buf 0 (absorb p.absorbVariant n.toNat seed)
  let (cur, m) ← derive p n.toNat m
  return { s with life := .ready, cfgN := n.setWidth 32, buf := m, cur := cur, prev := cur }

/-- CONSTRUCT (R100) on a block with parameters `p`, its checks in R245's order. -/
def constructWith (p : Params) (n : Word) (seed : List Byte) (s : State) : Result :=
  requireLife .uninit s <|
    if seed.length = 0 then raiseError .invalidSeed s
    else if !legalSize p.nMax n.toNat then raiseError .invalidConfig s
    else whenOk (initialise p n seed s) (complete [])

/-- CONSTRUCT (R100) on this build. -/
def execConstruct (n : Word) (seed : List Byte) (s : State) : Result :=
  constructWith Config.params n seed s

end Sys2Proof.Machine
end

