-- ==== Sys2Proof/Machine/Extract.lean ====
section
/-! DEFINITION. EXTRACT_U64 and the per-word step of the StreamExtractor (spec/43_extract.md). -/

namespace Sys2Proof.Machine

/-- XorAdvance (R162) in a bank of `w` lanes: element `idx_xor` of `xor_x` advances and the cursor
moves on. -/
def xorAdvance (w : Nat) (c : Snapshot) : Except Fault Snapshot := do
  let q := c.idxXor
  let a ← readElem c.xorA q
  let x ← readElem c.xorX q
  let b ← readElem c.xorB q
  let xorX ← writeElem c.xorX q ((a ^^^ x) + b)
  return { c with xorX := xorX, idxXor := (q + 1) % w }

/-- EmitOne (R161) in a bank of `w` lanes: the lane at `idx_mult` advances under the mask, then the
cursor, then at an epoch's end the XOR-feedback generator (R167). The emitted word is the lane's new
state (R165). -/
def emitOne (w : Nat) (c : Snapshot) : Except Fault (Word × Snapshot) := do
  let p := c.idxMult
  let mask ← readElem c.xorX c.idxXor
  let a ← readElem c.multA p
  let x ← readElem c.multX p
  let b ← readElem c.multB p
  let v := (a * x + b) ^^^ mask
  let multX ← writeElem c.multX p v
  let c := { c with multX := multX, idxMult := p + 1 }
  if c.idxMult = w then
    let c ← xorAdvance w { c with idxMult := 0 }
    return (v, c)
  else
    return (v, c)

/-- `k` EmitOne steps in a row: the words in order and the snapshot left (R160). -/
def emitWords (w : Nat) : Nat → Snapshot → Except Fault (List Word × Snapshot)
  | 0, c => .ok ([], c)
  | k + 1, c => do
    let (v, c) ← emitOne w c
    let (vs, c) ← emitWords w k c
    return (v :: vs, c)

/-- What EXTRACT_U64 and EXTRACT_F64 share (R160, R180, R181): the checks in R245's order, then
`amount` EmitOne steps; each emitted word goes to the payload through `render`. -/
def extractWith (render : Word → Word) (amount : Word) (s : State) : Result :=
  requireLife .ready s <|
    if s64 amount < 0 then raiseError .invalidArgument s
    else
      whenOk (emitWords (wordCount s.cfgN.toNat) (s64 amount).toNat s.cur) fun r =>
        complete (r.1.map render) { s with cur := r.2 }

/-- EXTRACT_U64 (R160). -/
def execExtractU64 (amount : Word) (s : State) : Result := extractWith id amount s

end Sys2Proof.Machine
end

