-- ==== Sys2Proof/Machine/Float.lean ====
section
/-! DEFINITION. EXTRACT_F64 and the binary64 conversion (spec/44_float.md). -/

namespace Sys2Proof.Machine

/-- `m = w[52:0]` (R182, R183). -/
def low53 (w : Word) : Word := w &&& 0x1FFFFFFFFFFFFF

/-- F64Bits (R183): the binary64 pattern of `m * 2^-53`. -/
def f64Bits (w : Word) : Word :=
  let m := low53 w
  if m = 0 then 0
  else
    let e := m.toNat.log2
    (BitVec.ofNat 64 (e + 970) <<< 52) ||| ((m - BitVec.ofNat 64 (2 ^ e)) <<< (52 - e))

/-- EXTRACT_F64 (R180): the same EmitOne steps as EXTRACT_U64 (R181), each word converted. -/
def execExtractF64 (amount : Word) (s : State) : Result := extractWith f64Bits amount s

end Sys2Proof.Machine
end

