-- ==== Sys2Proof/Machine/Readout.lean ====
section
/-! DEFINITION. READ_STATE and GET_STATUS (spec/46_readout.md). -/

namespace Sys2Proof.Machine

/-- READ_STATE's payload (R200, R201): N, the buffer, the six current arrays, the two cursors. -/
def readStatePayload (s : State) : Except Fault (List Word) := do
  let n := s.cfgN.toNat
  let w := wordCount n
  let buffer ← bufferFlits n s.buf
  let multX ← readElems w s.cur.multX
  let multA ← readElems w s.cur.multA
  let multB ← readElems w s.cur.multB
  let xorX ← readElems w s.cur.xorX
  let xorA ← readElems w s.cur.xorA
  let xorB ← readElems w s.cur.xorB
  return s.cfgN.setWidth 64 :: buffer ++ multX ++ multA ++ multB ++ xorX ++ xorA ++ xorB
    ++ [BitVec.ofNat 64 s.cur.idxMult, BitVec.ofNat 64 s.cur.idxXor]

/-- READ_STATE (R200): no state is written (R203). -/
def execReadState (s : State) : Result :=
  requireLife .ready s (whenOk (readStatePayload s) fun payload => complete payload s)

/-- GET_STATUS (R206) on a block with parameters `p`: accepted in both lifecycles. -/
def getStatusWith (p : Params) (s : State) : Result :=
  complete [statusRegister (readStatusReg p s .life) (readStatusReg p s .cfgN), readStatusReg p s .nMax] s

/-- GET_STATUS (R206) on this build. -/
def execGetStatus (s : State) : Result := getStatusWith Config.params s

end Sys2Proof.Machine
end

