-- ==== Sys2Proof/Syntax.lean ====
section
/-! DEFINITION. The command set (spec/30_encoding.md R73, R74; spec/opcode_table.json): one
constructor per row, with the operands a decoded frame carries (R78). -/

namespace Sys2Proof

/-- The seven commands of the LMX block (R2, R73). -/
inductive Instr where
  /-- CONSTRUCT(N, L, seed), R100. `n` is flit 1 (R75); `seed` the `L` seed bytes, byte 0 first, so
  `L` is `seed.length` (log 20). -/
  | construct (n : Word) (seed : List Byte)
  /-- EXTRACT_U64(amount), R160; `amount` is the operand flit, read as an s64 (R76). -/
  | extractU64 (amount : Word)
  /-- EXTRACT_F64(amount), R180; `amount` is the operand flit, read as an s64 (R76). -/
  | extractF64 (amount : Word)
  /-- CHECKPOINT, R190. -/
  | checkpoint
  /-- RESTORE, R192. -/
  | restore
  /-- READ_STATE, R200. -/
  | readState
  /-- GET_STATUS, R206. -/
  | getStatus
  deriving DecidableEq, Repr

end Sys2Proof
end

