-- ==== Sys2Proof/Machine/Dispatch.lean ====
section
/-! DEFINITION. One arm per command: its meaning. -/

namespace Sys2Proof.Machine

def exec (i : Instr) (s : State) : Host.Outcome State Fault Refusal :=
  match i with
  | .construct n seed => Sys2Proof.Machine.execConstruct n seed s
  | .extractU64 amount => Sys2Proof.Machine.execExtractU64 amount s
  | .extractF64 amount => Sys2Proof.Machine.execExtractF64 amount s
  | .checkpoint => Sys2Proof.Machine.execCheckpoint s
  | .restore => Sys2Proof.Machine.execRestore s
  | .readState => Sys2Proof.Machine.execReadState s
  | .getStatus => Sys2Proof.Machine.execGetStatus s

end Sys2Proof.Machine
end

