-- ==== Sys2Proof/WellFormed.lean ====
section
/-! DEFINITION. Which terms of `Instr` a command frame can carry. -/

namespace Sys2Proof

/-- The one bound the frame format puts on a command (spec/30_encoding.md R75): the seed length `L`
is an unsigned 64-bit operand. Every other term is carried by some frame. -/
abbrev Instr.WellFormed (i : Instr) : Prop :=
  match i with
  | .construct _ seed => seed.length < 2 ^ 64
  | .extractU64 _ => True
  | .extractF64 _ => True
  | .checkpoint => True
  | .restore => True
  | .readState => True
  | .getStatus => True

end Sys2Proof
end

