-- ==== Sys2Proof/Decode.lean ====
section
/-! DEFINITION. Decoding and encoding of command frames (spec/30_encoding.md R71 to R80). A frame is
the list of its flits' 64-bit values; its end is the LAST marker, which the port strips (R70). -/

namespace Sys2Proof

/-- Why a frame is malformed. Each is the block's one decode error, InvalidArgument (R78 to R80; the
names are this model's, log 21). -/
inductive DecodeError where
  /-- No flit at all: no frame of the port is empty (R70). -/
  | emptyFrame
  /-- Header bits `[63:8]` are not 0 (R72, R80). -/
  | reservedBits
  /-- OPCODE 0x00 or 0x08 to 0xFF (R73, R80). -/
  | reservedOpcode
  /-- The flit count is not R74's for the opcode (R79). -/
  | wrongLength
  deriving DecidableEq, Repr

/-- `ceil(L / 8)`: how many flits a seed of `L` bytes takes (R74). -/
def seedFlits (l : Nat) : Nat := (l + 7) / 8

/-- Seed bytes `0 .. L-1` of the seed flits: byte `j` is byte `j mod 8` of flit `j div 8` (R75). The
padding past byte `L-1` is dropped. -/
def seedOfFlits (flits : List Word) (l : Nat) : List Byte := (flits.flatMap (unpackBytes 8)).take l

/-- A seed as `k` flits, eight bytes each, zeros as the padding the block ignores (R71, R75). -/
def flitsOfSeed : Nat → List Byte → List Word
  | 0, _ => []
  | k + 1, bs => packBytes 64 (bs.take 8) :: flitsOfSeed k (bs.drop 8)

/-- The operands after a CONSTRUCT header: N, L and `ceil(L/8)` seed flits (R75, R78). -/
def decodeConstruct : List Word → Except DecodeError Instr
  | n :: l :: seedPart =>
    if seedPart.length = seedFlits l.toNat then .ok (.construct n (seedOfFlits seedPart l.toNat))
    else .error .wrongLength
  | _ => .error .wrongLength

/-- The one operand after an EXTRACT header (R76, R78). -/
def decodeAmount (mk : Word → Instr) : List Word → Except DecodeError Instr
  | [amount] => .ok (mk amount)
  | _ => .error .wrongLength

/-- A command without operands is its header alone (R77, R78). -/
def decodeBare (i : Instr) : List Word → Except DecodeError Instr
  | [] => .ok i
  | _ => .error .wrongLength

/-- The operands of the command an OPCODE names (R73, R78). -/
def decodeOperands (op : Nat) (operands : List Word) : Except DecodeError Instr :=
  match op with
  | 1 => decodeConstruct operands
  | 2 => decodeAmount .extractU64 operands
  | 3 => decodeAmount .extractF64 operands
  | 4 => decodeBare .checkpoint operands
  | 5 => decodeBare .restore operands
  | 6 => decodeBare .readState operands
  | 7 => decodeBare .getStatus operands
  | _ => .error .reservedOpcode

/-- Decode(f[0 .. n-1]) of R78: every frame is one command or a decode error. -/
def decodeFrame : List Word → Except DecodeError Instr
  | [] => .error .emptyFrame
  | header :: operands =>
    if header >>> 8 ≠ 0 then .error .reservedBits
    else decodeOperands (header.setWidth 8).toNat operands

/-- The OPCODE of a command (R73). -/
def opcode : Instr → Byte
  | .construct _ _ => 0x01
  | .extractU64 _ => 0x02
  | .extractF64 _ => 0x03
  | .checkpoint => 0x04
  | .restore => 0x05
  | .readState => 0x06
  | .getStatus => 0x07

/-- The operand flits of a command, in R74's order. -/
def operandFlits : Instr → List Word
  | .construct n seed =>
    n :: BitVec.ofNat 64 seed.length :: flitsOfSeed (seedFlits seed.length) seed
  | .extractU64 amount => [amount]
  | .extractF64 amount => [amount]
  | .checkpoint => []
  | .restore => []
  | .readState => []
  | .getStatus => []

/-- The command frame of a command: header with RSVD = 0, then the operands (R72, R74). -/
def encode (i : Instr) : List Word := (opcode i).setWidth 64 :: operandFlits i

/-- The flit count R74 gives a frame, read from its header and, for CONSTRUCT, from its flit 2; a
reserved header is a frame of one flit. -/
def tableFlits (header l : Word) : Nat :=
  match header.toNat with
  | 1 => 3 + seedFlits l.toNat
  | 2 => 2
  | 3 => 2
  | _ => 1

/-- Flit `k` of an instruction whose bits are `w`, flit 0 least significant. -/
def flitOfNat (w k : Nat) : Word := BitVec.ofNat 64 (w >>> (64 * k))

/-- The frame of an opcode-table word: the flits its `nbits` bits fill, and zero flits after them up
to the count R74 gives the frame (log 15). -/
def tableFrame (nbits w : Nat) : List Word :=
  let v := w % 2 ^ nbits
  let given := (nbits + 63) / 64
  (List.range (max given (tableFlits (flitOfNat v 0) (flitOfNat v 2)))).map (flitOfNat v)

/-- The command the decoder reads from an opcode-table word. -/
def decodeTableWord (nbits w : Nat) : Option Instr := (decodeFrame (tableFrame nbits w)).toOption

end Sys2Proof
end

