-- ==== Sys2Proof/Machine/Port.lean ====
section
/-! DEFINITION. The command port and the reset input (spec/30_encoding.md R70;
spec/70_reset_and_hazards.md R270 to R272, R279): which event the block acts on next, and how. -/

namespace Sys2Proof.Machine

/-- What stands first on the command port. -/
inductive Reception where
  /-- No LAST flit and no reset has arrived: the block waits (R279). -/
  | waiting
  /-- A reset, before any complete frame; `rest` arrived after it. -/
  | reset (rest : List PortEvent)
  /-- A complete frame, its flits without their markers; `rest` arrived after it. -/
  | frame (flits : List Word) (rest : List PortEvent)
  deriving DecidableEq, Repr

/-- A frame is the flits up to and with the first LAST (R70). A reset inside it discards what was
received of it (R272). An `abort` that follows no complete frame is a reset (log 14). -/
def receive : List PortEvent → Reception
  | [] => .waiting
  | .reset :: rest => .reset rest
  | .abort _ :: rest => .reset rest
  | .flit d true :: rest => .frame [d] rest
  | .flit d false :: rest =>
    match receive rest with
    | .frame flits rest' => .frame (d :: flits) rest'
    | other => other

/-- Reset (R270): the lifecycle, size, buffer and bank as `State.reset` has them; what arrived after
it is next on the command port, and what was sent stays sent (log 13). -/
def resetBlock (rest : List PortEvent) (s : State) : State :=
  { State.reset with cmdIn := rest, respOut := s.respOut }

/-- A complete frame (R78): its command is run, or the decode error InvalidArgument is raised before
every other check (R245). -/
def runFrame (run : Instr → State → Result) (flits : List Word) (s : State) : Result :=
  match decodeFrame flits with
  | .ok i => run i s
  | .error _ => raiseError .invalidArgument s

/-- The end of a command that started with `before` flits sent. If a reset hit it (R249, R272) it
takes no effect: the block is reset and only the first `sent` flits of its response have left. -/
def settleFrame (before : List Flit) (rest : List PortEvent) (r : Result) : Result :=
  match rest, r with
  | .abort sent :: later, .next t =>
    .next (resetBlock later { t with respOut := t.respOut.take (before.length + sent) })
  | _, r => r

/-- One step of the block, commands being run by `run`: act on what stands first on the command port
(R61). With nothing to act on, the block is idle (R279; log 11). -/
def portStep (run : Instr → State → Result) (s : State) : Result :=
  match receive s.cmdIn with
  | .waiting => .next s
  | .reset rest => .next (resetBlock rest s)
  | .frame flits rest => settleFrame s.respOut rest (runFrame run flits { s with cmdIn := rest })

/-- The events of one command frame: LAST on the final flit only (R70). -/
def frameEvents (flits : List Word) : List PortEvent :=
  (frameOf flits).map fun f => .flit f.data f.last

/-- The command port as an opcode-table word needs it: that word's frame and nothing else (log 15). -/
def placeFrame (s : State) (nbits w : Nat) : State :=
  { s with cmdIn := frameEvents (tableFrame nbits w) }

end Sys2Proof.Machine
end

