-- ==== Sys2Proof/Machine/Step.lean ====
section
/-! DEFINITION. One step of the block: one command frame, one reset, or waiting. -/

namespace Sys2Proof.Machine

/-- One step (R58, R61): `portStep` with the meanings of `exec`. -/
def step (s : State) : Host.Outcome State Fault Refusal := portStep exec s

/-- The state with an opcode-table word's frame as the command port's whole contents. -/
def State.withFetchWord (s : State) (nbits w : Nat) : State := placeFrame s nbits w

end Sys2Proof.Machine
end

