-- ==== Sys2Proof/Laws/PerInstr.lean ====
section
/-! SUPPORT. Families of facts about each command as syntax, one lemma a constructor. -/

namespace Sys2Proof.Laws

/-- R74: the flit count of a command's frame. -/
def frameFlits : Instr → Nat
  | .construct _ seed => 3 + seedFlits seed.length
  | .extractU64 _ => 2
  | .extractF64 _ => 2
  | .checkpoint => 1
  | .restore => 1
  | .readState => 1
  | .getStatus => 1

theorem flitsOfSeed_length (k : Nat) (bs : List Byte) : (flitsOfSeed k bs).length = k := by
  induction k generalizing bs with
  | zero => rfl
  | succ k ih => simp [flitsOfSeed, ih]

/-- The encoded frame has R74's flit count. -/
def FrameLength.Statement (i : Instr) : Prop := (encode i).length = frameFlits i

theorem FrameLength.construct (n : Word) (seed : List Byte) :
    FrameLength.Statement (.construct n seed) := by
  simp only [FrameLength.Statement, encode, operandFlits, List.length_cons, flitsOfSeed_length,
    frameFlits]
  omega
theorem FrameLength.extractU64 (amount : Word) : FrameLength.Statement (.extractU64 amount) := rfl
theorem FrameLength.extractF64 (amount : Word) : FrameLength.Statement (.extractF64 amount) := rfl
theorem FrameLength.checkpoint : FrameLength.Statement .checkpoint := rfl
theorem FrameLength.restore : FrameLength.Statement .restore := rfl
theorem FrameLength.readState : FrameLength.Statement .readState := rfl
theorem FrameLength.getStatus : FrameLength.Statement .getStatus := rfl

/-- The header carries the OPCODE of R73 in bits `[7:0]` and zeros above (R72). -/
def Header.Statement (i : Instr) : Prop :=
  ∃ header operands, encode i = header :: operands ∧ header.setWidth 8 = opcode i ∧ header >>> 8 = 0

theorem Header.construct (n : Word) (seed : List Byte) : Header.Statement (.construct n seed) :=
  ⟨_, _, rfl, by simp only [opcode]; rfl, by simp only [opcode]; decide⟩
theorem Header.extractU64 (amount : Word) : Header.Statement (.extractU64 amount) :=
  ⟨_, _, rfl, by simp only [opcode]; rfl, by simp only [opcode]; decide⟩
theorem Header.extractF64 (amount : Word) : Header.Statement (.extractF64 amount) :=
  ⟨_, _, rfl, by simp only [opcode]; rfl, by simp only [opcode]; decide⟩
theorem Header.checkpoint : Header.Statement .checkpoint := ⟨_, _, rfl, by simp only [opcode]; rfl, by simp only [opcode]; decide⟩
theorem Header.restore : Header.Statement .restore := ⟨_, _, rfl, by simp only [opcode]; rfl, by simp only [opcode]; decide⟩
theorem Header.readState : Header.Statement .readState := ⟨_, _, rfl, by simp only [opcode]; rfl, by simp only [opcode]; decide⟩
theorem Header.getStatus : Header.Statement .getStatus := ⟨_, _, rfl, by simp only [opcode]; rfl, by simp only [opcode]; decide⟩

end Sys2Proof.Laws
end

