-- ==== Sys2Proof/Machine/Assembler.lean ====
section
/-! DEFINITION. The assembler syntax of spec/30_encoding.md R86: text lines to command frames. It is
the host's notation; no state of the block depends on it. Details R86 leaves open are log 18's. -/

namespace Sys2Proof.Machine

/-- A decimal digit. -/
def decDigit (c : Char) : Option Nat :=
  if '0'.toNat ≤ c.toNat ∧ c.toNat ≤ '9'.toNat then some (c.toNat - '0'.toNat) else none

/-- A hexadecimal digit of either case. -/
def hexDigit (c : Char) : Option Nat :=
  if 'a'.toNat ≤ c.toNat ∧ c.toNat ≤ 'f'.toNat then some (c.toNat - 'a'.toNat + 10)
  else if 'A'.toNat ≤ c.toNat ∧ c.toNat ≤ 'F'.toNat then some (c.toNat - 'A'.toNat + 10)
  else decDigit c

/-- A nonempty run of digits in a base, most significant first. -/
def parseDigits (base : Nat) (digit : Char → Option Nat) : List Char → Option Nat
  | [] => none
  | cs => cs.foldlM (fun acc c => (digit c).map (base * acc + ·)) 0

/-- A number, decimal or `0x` hexadecimal (R86). -/
def parseNumber : List Char → Option Nat
  | '0' :: 'x' :: cs => parseDigits 16 hexDigit cs
  | cs => parseDigits 10 decDigit cs

/-- A number that may be negative (R86, EXTRACT's amount). -/
def parseSigned : List Char → Option Int
  | '-' :: cs => (parseNumber cs).map fun n => -(n : Int)
  | cs => (parseNumber cs).map fun n => (n : Int)

/-- Two hex digits a byte, seed byte 0 first (R86). -/
def parseHexBytes : List Char → Option (List Byte)
  | [] => some []
  | hi :: lo :: cs => do
    let h ← hexDigit hi
    let l ← hexDigit lo
    let rest ← parseHexBytes cs
    return BitVec.ofNat 8 (16 * h + l) :: rest
  | [_] => none

/-- `<seed-hex>`: `""` is the empty seed (R86). -/
def parseSeed : List Char → Option (List Byte)
  | ['"', '"'] => some []
  | [] => none
  | cs => parseHexBytes cs

/-- The tokens of a line: words, and each comma as a token; `word` holds the characters of the word
being read. -/
def tokens : List Char → List Char → List (List Char)
  | word, [] => if word = [] then [] else [word]
  | word, c :: cs =>
    let done := if word = [] then [] else [word]
    if c = ' ' ∨ c = '\t' ∨ c = '\r' then done ++ tokens [] cs
    else if c = ',' then done ++ [','] :: tokens [] cs
    else tokens (word ++ [c]) cs

/-- An operand that must fit an unsigned 64-bit flit (R75). -/
def u64Operand (n : Nat) : Option Word := if n < 2 ^ 64 then some (BitVec.ofNat 64 n) else none

/-- An operand that must fit a signed 64-bit flit (R76). -/
def s64Operand (v : Int) : Option Word :=
  if -2 ^ 63 ≤ v ∧ v < 2 ^ 63 then some (BitVec.ofInt 64 v) else none

/-- One line (R86): no command on a blank or comment line, else one; none where the line is neither. -/
def assembleLine (line : List Char) : Option (List Instr) :=
  match tokens [] (line.takeWhile (· ≠ ';')) with
  | [] => some []
  | [word] =>
    if word = "CHECKPOINT".toList then some [.checkpoint]
    else if word = "RESTORE".toList then some [.restore]
    else if word = "READ_STATE".toList then some [.readState]
    else if word = "GET_STATUS".toList then some [.getStatus]
    else none
  | [word, amount] => do
    let a ← s64Operand (← parseSigned amount)
    if word = "EXTRACT_U64".toList then return [.extractU64 a]
    else if word = "EXTRACT_F64".toList then return [.extractF64 a]
    else none
  | [word, size, [','], seed] => do
    let n ← u64Operand (← parseNumber size)
    let bytes ← parseSeed seed
    if word = "CONSTRUCT".toList then return [.construct n bytes] else none
  | _ => none

/-- The lines of a text, `line` holding the characters of the line being read. -/
def splitLines : List Char → List Char → List (List Char)
  | line, [] => if line = [] then [] else [line]
  | line, c :: cs => if c = '\n' then line :: splitLines [] cs else splitLines (line ++ [c]) cs

/-- A program text to its command frames, one a command (R86). -/
def assemble (text : List Char) : Option (List (List Word)) :=
  ((splitLines [] text).mapM assembleLine).map fun cmds => cmds.flatten.map encode

end Sys2Proof.Machine
end

