-- ==== Sys2Proof/Machine/Serializer.lean ====
section
/-! DEFINITION. The host's text dump (spec/46_readout.md R210 to R212, R214): pure functions of response
payloads, and the parser that reads a dump back. It is host software (00_scope.md R5 (c)); no state of
the block depends on it. -/

namespace Sys2Proof.Machine

/-- An uppercase hex digit. -/
def hexChar (d : Nat) : Char := "0123456789ABCDEF".toList.getD d '0'

/-- The `k` low hex digits of a number, most significant first (R210). -/
def hexText : Nat → Nat → List Char
  | 0, _ => []
  | k + 1, v => hexText k (v / 16) ++ [hexChar (v % 16)]

/-- Decimal without leading zeros (R210). -/
def decText (v : Nat) : List Char := Nat.toDigits 10 v

/-- Texts separated by commas, no spaces (R210). -/
def commaText : List (List Char) → List Char
  | [] => []
  | [t] => t
  | t :: u :: ts => t ++ ',' :: commaText (u :: ts)

/-- One line `key:value` with its line feed (R210). -/
def textLine (key : String) (value : List Char) : List Char := key.toList ++ ':' :: value ++ ['\n']

/-- Words as 16 uppercase hex digits each (R210, R211). -/
def wordsText (ws : List Word) : List Char := commaText (ws.map fun v => hexText 16 v.toNat)

/-- Bytes as 2 uppercase hex digits each (R210). -/
def bytesText (bs : List Byte) : List Char := commaText (bs.map fun v => hexText 2 v.toNat)

/-- The state block (R210) of a READ_STATE payload, whose flit 0 is N (R201). -/
def dumpBlock (payload : List Word) : List Char :=
  let w := wordCount (payload.headD 0).toNat
  let part (k : Nat) : List Word := (payload.drop (1 + k * w)).take w
  let cursor (k : Nat) : List Char := decText (payload.getD (1 + 7 * w + k) 0).toNat
  textLine "v_state_u8" (bytesText ((part 0).flatMap (unpackBytes 8)))
    ++ textLine "v_x_mult" (wordsText (part 1))
    ++ textLine "v_a_mult" (wordsText (part 2))
    ++ textLine "v_b_mult" (wordsText (part 3))
    ++ textLine "v_x_xor" (wordsText (part 4))
    ++ textLine "v_a_xor" (wordsText (part 5))
    ++ textLine "v_b_xor" (wordsText (part 6))
    ++ textLine "idx_values_mult" (cursor 0)
    ++ textLine "idx_values_xor" (cursor 1)

/-- `a / b` rounded to an integer, half to even (R211). -/
def divHalfEven (a b : Nat) : Nat :=
  let q := a / b
  let r := a % b
  if 2 * r < b then q else if b < 2 * r then q + 1 else if q % 2 = 0 then q else q + 1

/-- `k` decimal digits with leading zeros. -/
def decDigitsText : Nat → Nat → List Char
  | 0, _ => []
  | k + 1, v => decDigitsText k (v / 10) ++ [hexChar (v % 10)]

/-- A result of EXTRACT_F64 in units of `10^-16`: the exact binary64 value of R183's pattern,
`(2^52 + fraction) * 2^(exponent - 1075)`, rounded half to even (R211). -/
def floatScaled (bits : Word) : Nat :=
  let fraction := (bits.extractLsb' 0 52).toNat
  let exponent := (bits.extractLsb' 52 11).toNat
  if bits = 0 then 0 else divHalfEven ((2 ^ 52 + fraction) * 10 ^ 16) (2 ^ (1075 - exponent))

/-- A number of units of `10^-16` as `0.` and 16 decimals (R211). -/
def decimalText (v : Nat) : List Char := '0' :: '.' :: decDigitsText 16 v

/-- What a dump is made of (R212), by the values its texts state. -/
inductive DumpPart where
  /-- A state block (R210) of a READ_STATE payload. -/
  | block (payload : List Word)
  /-- The output line of an EXTRACT_U64 (R211). -/
  | words (values : List Word)
  /-- The output line of an EXTRACT_F64 (R211), each value in units of `10^-16` (log 24). -/
  | floats (values : List Nat)
  deriving DecidableEq, Repr

/-- The text of one part (R210, R211). -/
def partText : DumpPart → List Char
  | .block payload => dumpBlock payload
  | .words values => textLine "v_vec_u64" (wordsText values)
  | .floats values => textLine "v_vec_f64" (commaText (values.map decimalText))

/-- The text of a dump: its parts one after the other (R212). -/
def dumpText (parts : List DumpPart) : List Char := parts.flatMap partText

/-- What the host writes after a command that succeeded (R212), from that command's payload and the
payload of the READ_STATE after it. -/
def dumpParts (i : Instr) (payload state : List Word) : List DumpPart :=
  match i with
  | .construct _ _ => [.block state]
  | .extractU64 _ => [.words payload, .block state]
  | .extractF64 _ => [.floats (payload.map floatScaled), .block state]
  | .checkpoint => []
  | .restore => []
  | .readState => []
  | .getStatus => []

/-- The commands after which the host writes a state block, and so reads the state (R212). -/
def writesBlock (i : Instr) : Bool :=
  match i with
  | .construct _ _ => true
  | .extractU64 _ => true
  | .extractF64 _ => true
  | .checkpoint => false
  | .restore => false
  | .readState => false
  | .getStatus => false

/-- The fields of a value text, `field` holding the characters of the field being read. -/
def splitCommas : List Char → List Char → List (List Char)
  | field, [] => [field]
  | field, c :: cs => if c = ',' then field :: splitCommas [] cs else splitCommas (field ++ [c]) cs

/-- The value text of a line with this key. -/
def valueOf (key : String) (line : List Char) : Option (List Char) :=
  let lead := key.toList ++ [':']
  if lead.isPrefixOf line then some (line.drop lead.length) else none

/-- The comma-separated fields of a line with this key, each read by `field`; an empty value has none
(R211). -/
def parseFields {α : Type} (key : String) (field : List Char → Option α) (line : List Char) :
    Option (List α) := do
  let value ← valueOf key line
  if value = [] then return [] else (splitCommas [] value).mapM field

/-- A word field (R210, R211). -/
def parseWord (f : List Char) : Option Word := (parseDigits 16 hexDigit f).map (BitVec.ofNat 64)

/-- A byte field (R210). -/
def parseByte (f : List Char) : Option Byte := (parseDigits 16 hexDigit f).map (BitVec.ofNat 8)

/-- A float field in units of `10^-16` (R211). -/
def parseDecimal : List Char → Option Nat
  | '0' :: '.' :: digits => parseDigits 10 decDigit digits
  | _ => none

/-- The decimal cursor of a dump line. -/
def parseCursor (key : String) (line : List Char) : Option Word := do
  let value ← valueOf key line
  (parseDigits 10 decDigit value).map (BitVec.ofNat 64)

/-- An output line (R211). -/
def parseOutput (line : List Char) : Option DumpPart :=
  match parseFields "v_vec_u64" parseWord line with
  | some values => some (.words values)
  | none => (parseFields "v_vec_f64" parseDecimal line).map .floats

/-- The nine lines of a state block as the READ_STATE payload they render (R210). -/
def parseBlock (l0 l1 l2 l3 l4 l5 l6 l7 l8 : List Char) : Option DumpPart := do
  let bytes ← parseFields "v_state_u8" parseByte l0
  let multX ← parseFields "v_x_mult" parseWord l1
  let multA ← parseFields "v_a_mult" parseWord l2
  let multB ← parseFields "v_b_mult" parseWord l3
  let xorX ← parseFields "v_x_xor" parseWord l4
  let xorA ← parseFields "v_a_xor" parseWord l5
  let xorB ← parseFields "v_b_xor" parseWord l6
  let idxMult ← parseCursor "idx_values_mult" l7
  let idxXor ← parseCursor "idx_values_xor" l8
  return .block (BitVec.ofNat 64 bytes.length :: flitsOfSeed (wordCount bytes.length) bytes
    ++ multX ++ multA ++ multB ++ xorX ++ xorA ++ xorB ++ [idxMult, idxXor])

/-- The parts of a list of lines: an output line is a part, and any other line begins a state block. -/
def parseLines : List (List Char) → Option (List DumpPart)
  | [] => some []
  | line :: rest =>
    match parseOutput line with
    | some part => (parseLines rest).map (part :: ·)
    | none =>
      match rest with
      | l1 :: l2 :: l3 :: l4 :: l5 :: l6 :: l7 :: l8 :: later => do
        let part ← parseBlock line l1 l2 l3 l4 l5 l6 l7 l8
        (parseLines later).map (part :: ·)
      | _ => none

/-- A dump read back into its parts (R214). Which other texts it reads is the model's choice (DESIGN
CHOICE, log 24): none. A text is read only if it is, character for character, what its parts render. -/
def parseDump (text : List Char) : Option (List DumpPart) := do
  let parts ← parseLines (splitLines [] text)
  if dumpText parts = text then return parts else none

end Sys2Proof.Machine
end

