-- ==== Sys2Proof/Machine/Session.lean ====
section
/-! DEFINITION. The host's side of a run (spec/46_readout.md R212): it makes calls one after the other and
writes their dump. It is host software (00_scope.md R5 (c)): it acts on the block through commands alone. -/

namespace Sys2Proof.Machine

/-- The payload of a response whose status flit has CODE 0 (R84, R85); none for an error response. -/
def successPayload (response : List Flit) : Option (List Word) :=
  match response with
  | [] => none
  | status :: payload => if status.data.setWidth 8 = (0 : Byte) then some (payload.map Flit.data) else none

/-- One call of the host: the command and, where it succeeded and R212 asks for a state block after it, a
READ_STATE. Answers what the host writes and the state left. A call the block refuses writes nothing
(log 25). -/
def hostCall (i : Instr) (s : State) : Host.Outcome (List DumpPart × State) Fault Refusal :=
  andThen (exec i s) fun t =>
    match successPayload (newFlits s t) with
    | none => .next ([], t)
    | some payload =>
      if writesBlock i then
        andThen (exec .readState t) fun u =>
          match successPayload (newFlits t u) with
          | none => .next ([], u)
          | some state => .next (dumpParts i payload state, u)
      else .next ([], t)

/-- A sequence of calls: what the host writes, in call order, and the state left (R212). -/
def hostSession : List Instr → State → Host.Outcome (List DumpPart × State) Fault Refusal
  | [], s => .next ([], s)
  | i :: is, s =>
    andThen (hostCall i s) fun r =>
      andThen (hostSession is r.2) fun q => .next (r.1 ++ q.1, q.2)

end Sys2Proof.Machine
end

