-- ==== Sys2Proof/Safety.lean ====
section
/-! DEFINITION. The terms claims use: the invariant of the block, what a safe step is, runs of
commands, and a reference form of the Diffuser on a list of blocks. -/

namespace Sys2Proof.Machine

/-- Six arrays of `w` words each (R26, R28). -/
abbrev Snapshot.Shaped (w : Nat) (c : Snapshot) : Prop :=
  c.multX.length = w ∧ c.multA.length = w ∧ c.multB.length = w ∧
    c.xorX.length = w ∧ c.xorA.length = w ∧ c.xorB.length = w

/-- The parity invariants of R29 on one snapshot. -/
abbrev Snapshot.Parity (c : Snapshot) : Prop :=
  (∀ v ∈ c.multA, v % 4 = 1) ∧ (∀ v ∈ c.multB, v % 2 = 1) ∧
    (∀ v ∈ c.xorA, v % 2 = 0) ∧ (∀ v ∈ c.xorB, v % 2 = 1)

/-- Both cursors below `w` (R27). -/
abbrev Snapshot.CursorsBelow (w : Nat) (c : Snapshot) : Prop := c.idxMult < w ∧ c.idxXor < w

/-- What every state reached from reset satisfies (R21, R22, R25 to R29, and the canonical form of the
buffer): the buffer holds exactly the bytes `0 .. N-1`. -/
structure State.Inv (s : State) : Prop where
  buf_addresses : s.buf.map Prod.fst = List.range s.cfgN.toNat
  cur_shaped : s.cur.Shaped (wordCount s.cfgN.toNat)
  prev_shaped : s.prev.Shaped (wordCount s.cfgN.toNat)
  cur_parity : s.cur.Parity
  prev_parity : s.prev.Parity
  uninit_size : s.life = .uninit → s.cfgN = 0
  ready_size : s.life = .ready → legalSize Config.params.nMax s.cfgN.toNat = true
  ready_cur_cursors : s.life = .ready → s.cur.CursorsBelow (wordCount s.cfgN.toNat)
  ready_prev_cursors : s.life = .ready → s.prev.CursorsBelow (wordCount s.cfgN.toNat)

/-- A safe step: the block answers with a next state; the model neither faults nor refuses. -/
def Answers (r : Result) : Prop := ∃ t, r = .next t

/-- Commands executed one after the other (R61), up to the first stop. -/
def runCommands : List Instr → State → Result
  | [], s => .next s
  | i :: is, s =>
    match exec i s with
    | .next t => runCommands is t
    | .fault f => .fault f
    | .refused r => .refused r

/-- The commands that write neither `prev` nor the buffer (R31): the extractions and the readouts. -/
abbrev Draws (i : Instr) : Prop :=
  match i with
  | .construct _ _ => False
  | .extractU64 _ => True
  | .extractF64 _ => True
  | .checkpoint => False
  | .restore => False
  | .readState => True
  | .getStatus => True

/-- A byte string cut into `k` blocks of 32 bytes (R53). -/
def blocksOf : Nat → List Byte → List Block
  | 0, _ => []
  | k + 1, bs => packBytes 256 (bs.take 32) :: blocksOf k (bs.drop 32)

/-- A ring step on a list of blocks (R121 to R124). -/
def ringStepBlocks (p : Params) (ring : List Block) (i : Nat) : List Block :=
  let k := (i + 1) % ring.length
  ring.set k (mixBlocks p (ring.getD i 0) (ring.getD k 0))

/-- A diffusion round on a list of blocks (R123). -/
def roundBlocks (p : Params) (ring : List Block) : List Block :=
  (List.range ring.length).foldl (ringStepBlocks p) ring

/-- `k` rounds on a list of blocks. -/
def roundsBlocks (p : Params) : Nat → List Block → List Block
  | 0, ring => ring
  | k + 1, ring => roundsBlocks p k (roundBlocks p ring)

/-- The bytes of a ring, in address order. -/
def ringBytes (ring : List Block) : List Byte := ring.flatMap (unpackBytes 32)

/-- The word view of a ring: four words a block (R52, R54). -/
def ringWords (o : WordOrder) (ring : List Block) : List Word :=
  ring.flatMap fun b =>
    (List.range 4).map fun j => composeWord o (((unpackBytes 32 b).drop (8 * j)).take 8)

end Sys2Proof.Machine
end

