-- ==== Sys2Proof/Certificates/Slice0/Obligations.lean ====
section
/-! DEFINITION. The statements for the provers. Each docstring names the rule of spec/ it formalises, or
the model's choice (a log entry of notes/assumptions/) it rests on. -/

open Sys2Proof Sys2Proof.Machine

/-! ## Encoding and decoding -/

/-- R74, R75, R78: decoding the frame of a well-formed command gives the command back, with every
operand at every value. -/
def Obligations.DecodeEncodeRoundTrip : Prop :=
  ∀ i : Instr, i.WellFormed → decodeFrame (encode i) = .ok i

/-- R74, R78: what decodes is well formed and has R74's header and flit count; only CONSTRUCT, whose
padding is ignored, has more than one frame. -/
def Obligations.DecodedFramesHaveTheirFormat : Prop :=
  ∀ (flits : List Word) (i : Instr), decodeFrame flits = .ok i →
    i.WellFormed ∧ flits.length = (encode i).length ∧ flits.head? = (encode i).head? ∧
      ((∀ n seed, i ≠ .construct n seed) → flits = encode i)

/-- R75: N is flit 1 untruncated, L is flit 2, seed byte `j` is byte `j mod 8` of flit
`3 + (j div 8)`, and frames that differ only in the padding past byte `L - 1` decode alike. -/
def Obligations.SeedBytesArePackedAndPaddingIsIgnored : Prop :=
  (∀ (n l : Word) (flits : List Word), flits.length = (l.toNat + 7) / 8 →
    ∃ seed : List Byte, decodeFrame (1 :: n :: l :: flits) = .ok (.construct n seed) ∧
      seed.length = l.toNat ∧
      ∀ j < l.toNat, seed[j]? = flits[j / 8]?.map fun f => f.extractLsb' (8 * (j % 8)) 8) ∧
  (∀ (n l : Word) (flits flits' : List Word), flits.length = (l.toNat + 7) / 8 →
    flits'.length = (l.toNat + 7) / 8 →
    (∀ j < l.toNat, flits[j / 8]?.map (fun f => f.extractLsb' (8 * (j % 8)) 8) =
      flits'[j / 8]?.map fun f => f.extractLsb' (8 * (j % 8)) 8) →
    decodeFrame (1 :: n :: l :: flits) = decodeFrame (1 :: n :: l :: flits'))

/-- R80: a reserved OPCODE or a nonzero RSVD field (every header that is 0 or at least 8) gets an
InvalidArgument response, and no state changes. -/
def Obligations.ReservedHeadersGetInvalidArgument : Prop :=
  ∀ (s : State) (header : Word) (operands : List Word) (rest : List PortEvent),
    receive s.cmdIn = .frame (header :: operands) rest → (∀ k later, rest ≠ .abort k :: later) →
    (header = 0 ∨ 8 ≤ header.toNat) →
    step s = .next { s with
      cmdIn := rest
      respOut := s.respOut ++ [⟨if s.life = .ready then 0x103 else 0x003, true⟩] }

/-- R79: a frame whose flit count is not R74's for its opcode is consumed whole and gets one
InvalidArgument response, and no state changes. -/
def Obligations.WrongFlitCountsGetInvalidArgument : Prop :=
  ∀ (s : State) (header : Word) (operands : List Word) (rest : List PortEvent),
    receive s.cmdIn = .frame (header :: operands) rest → (∀ k later, rest ≠ .abort k :: later) →
    ((header = 1 ∧ operands.length < 2) ∨
      (header = 1 ∧ ∃ n l seedFlits, operands = n :: l :: seedFlits ∧
        seedFlits.length ≠ (l.toNat + 7) / 8) ∨
      ((header = 2 ∨ header = 3) ∧ operands.length ≠ 1) ∨
      ((header = 4 ∨ header = 5 ∨ header = 6 ∨ header = 7) ∧ operands.length ≠ 0)) →
    step s = .next { s with
      cmdIn := rest
      respOut := s.respOut ++ [⟨if s.life = .ready then 0x103 else 0x003, true⟩] }

/-- R87: the worked frames, read and written. -/
def Obligations.WorkedFramesDecodeAndEncode : Prop :=
  decodeFrame [0x0000000000000001, 0x0000000000000020, 0x0000000000000001, 0x0000000000000001] =
      .ok (.construct 32 [0x01]) ∧
    encode (.construct 32 [0x01]) =
      [0x0000000000000001, 0x0000000000000020, 0x0000000000000001, 0x0000000000000001] ∧
    decodeFrame [0x0000000000000002, 0xFFFFFFFFFFFFFFFF] = .ok (.extractU64 (-1)) ∧
    encode (.extractU64 (-1)) = [0x0000000000000002, 0xFFFFFFFFFFFFFFFF]

/-! ## The step, the command port and reset -/

/-- R61, R78: when a complete frame stands first on the command port and no reset hits its command, the
step is `exec` of the command it decodes to, in the state with that frame consumed (the port as a list
of events: log 10). -/
def Obligations.StepRunsTheDecodedCommand : Prop :=
  ∀ (s : State) (flits : List Word) (rest : List PortEvent) (i : Instr),
    receive s.cmdIn = .frame flits rest → (∀ k later, rest ≠ .abort k :: later) →
    decodeFrame flits = .ok i → step s = exec i { s with cmdIn := rest }

/-- R70, R74, R78: a well-formed command's frame, placed on the port before other events, is the
command the next step runs. -/
def Obligations.EncodedFrameOnThePortRuns : Prop :=
  ∀ (i : Instr) (s : State) (rest : List PortEvent), i.WellFormed →
    (∀ k later, rest ≠ .abort k :: later) →
    step { s with cmdIn := frameEvents (encode i) ++ rest } = exec i { s with cmdIn := rest }

/-- R279, with the model's choice that an idle block's step answers the same state (log 11): flits
without a LAST leave the block waiting, and the next frame's flits are read as their rest. -/
def Obligations.IncompleteFrameWaitsForItsRest : Prop :=
  (∀ (s : State) (ds : List Word), s.cmdIn = ds.map (fun d => .flit d false) → step s = .next s) ∧
  (∀ (ds flits : List Word) (rest : List PortEvent), flits ≠ [] →
    receive (ds.map (fun d => .flit d false) ++ (frameEvents flits ++ rest)) =
      .frame (ds ++ flits) rest)

/-- R270, R272: a reset discards a partly received frame, makes the block UNINIT with size 0, and the
next flit starts a new frame. That no byte then holds a value is log 7's, that flits already sent
stay on the response port log 13's choice. -/
def Obligations.ResetDiscardsThePartialFrame : Prop :=
  ∀ (s : State) (ds : List Word) (rest : List PortEvent),
    s.cmdIn = ds.map (fun d => .flit d false) ++ .reset :: rest →
    ∃ t, step s = .next t ∧ t.life = .uninit ∧ t.cfgN = 0 ∧ (∀ a, readByte t.buf a = none) ∧
      t.cmdIn = rest ∧ t.respOut = s.respOut

/-- R249, R270, R272: a reset that hits a command wins. The command takes no effect, the block is UNINIT
with size 0, and of its response only the first `k` flits have left (how many is the input's, log 14).
That no byte then holds a value is log 7's choice, that every flit sent before stays on the response
port log 13's. -/
def Obligations.ResetDuringACommandWins : Prop :=
  ∀ (s : State) (flits : List Word) (k : Nat) (later : List PortEvent), s.Inv →
    receive s.cmdIn = .frame flits (.abort k :: later) →
    ∃ t u, step s = .next t ∧
      runFrame exec flits { s with cmdIn := .abort k :: later } = .next u ∧
      t.life = .uninit ∧ t.cfgN = 0 ∧ (∀ a, readByte t.buf a = none) ∧ t.cmdIn = later ∧
      t.respOut = s.respOut ++ (newFlits s u).take k

/-! ## Responses -/

/-- R84: CODE in bits `[7:0]` (numbers of R240), READY in bit 8, bits `[63:9]` zero. -/
def Obligations.StatusFlitLayout : Prop :=
  ∀ (c : Code) (l : Life),
    (statusFlit c l).extractLsb' 0 8 = (match c with
      | .ok => 0 | .invalidSeed => 1 | .invalidConfig => 2 | .invalidArgument => 3
      | .invalidState => 4 : Byte) ∧
    (statusFlit c l).getLsbD 8 = decide (l = .ready) ∧ statusFlit c l >>> 9 = 0

/-- R70, R85: a response frame carries its flits in order, with LAST on the final one only. -/
def Obligations.LastMarksTheFinalFlitOnly : Prop :=
  ∀ vs : List Word, (frameOf vs).map Flit.data = vs ∧
    ∀ i < vs.length, (frameOf vs)[i]?.map Flit.last = some (decide (i + 1 = vs.length))

/-- R246: a frame whose command fails, a malformed one among them, writes no state, and its response is
the status flit alone with the unchanged lifecycle; one whose command succeeds gets one response frame
with CODE 0. The command port is not touched by a command. -/
def Obligations.FailingCommandsWriteNothing : Prop :=
  ∀ (flits : List Word) (s t : State), runFrame exec flits s = .next t →
    t.cmdIn = s.cmdIn ∧
    ((∃ c, c ≠ Code.ok ∧ t = { s with respOut := s.respOut ++ [⟨statusFlit c s.life, true⟩] }) ∨
      (∃ payload, t.respOut = s.respOut ++ frameOf (statusFlit .ok t.life :: payload)))

/-- R243: in UNINIT the five commands that need a bank fail with InvalidState; in READY, CONSTRUCT
does; CONSTRUCT in UNINIT and GET_STATUS anywhere do not. -/
def Obligations.LifecycleGatesTheCommands : Prop :=
  ∀ s : State,
    (s.life = .uninit → ∀ amount : Word,
      ∀ i ∈ [Instr.extractU64 amount, .extractF64 amount, .checkpoint, .restore, .readState],
        exec i s = .next { s with respOut := s.respOut ++ [⟨0x004, true⟩] }) ∧
    (s.life = .ready → ∀ n seed,
      exec (.construct n seed) s = .next { s with respOut := s.respOut ++ [⟨0x104, true⟩] }) ∧
    (s.life = .uninit → ∀ n seed, ∃ t status, exec (.construct n seed) s = .next t ∧
      t.respOut = s.respOut ++ [⟨status, true⟩] ∧ status.extractLsb' 0 8 ≠ (4 : Byte)) ∧
    (∃ t status payload, exec .getStatus s = .next t ∧
      t.respOut = s.respOut ++ frameOf (status :: payload) ∧ status.extractLsb' 0 8 = (0 : Byte))

/-! ## The state buffer -/

/-- R17: MemWrite succeeds exactly inside the buffer; what it wrote reads back, every other byte is as
before, and the canonical form of the buffer is kept. That a write elsewhere faults is log 22's. -/
def Obligations.MemWriteThenMemRead : Prop :=
  ∀ (n : Nat) (m : Memory) (a : Nat) (v : List Byte),
    (a + v.length ≤ n → ∃ m', memWrite n m a v = .ok m' ∧ memRead n m' a v.length = .ok v ∧
      (∀ b, b < a ∨ a + v.length ≤ b → readByte m' b = readByte m b) ∧
      (Memory.wf m → Memory.wf m')) ∧
    (n < a + v.length → memWrite n m a v = .error (.outsideBuffer a))

/-- R52: word `k` is the sum of its eight bytes at the weights of WORD_ORDER. -/
def Obligations.WordViewComposesEightBytes : Prop :=
  ∀ (n : Nat) (m : Memory) (k : Nat) (f : Nat → Byte), 8 * k + 8 ≤ n →
    (∀ t < 8, readByte m (8 * k + t) = some (f t)) →
    (∃ w, readWord .le n m k = .ok w ∧
      w.toNat = ((List.range 8).map fun t => (f t).toNat * 2 ^ (8 * t)).sum) ∧
    (∃ w, readWord .be n m k = .ok w ∧
      w.toNat = ((List.range 8).map fun t => (f t).toNat * 2 ^ (8 * (7 - t))).sum)

/-- R54: block `i` consists of the words `4i .. 4i+3`; a write of the block changes those four, as R52
composes them from the new bytes, and no other word. -/
def Obligations.BlockWriteChangesItsFourWords : Prop :=
  ∀ (o : WordOrder) (n : Nat) (m m' : Memory) (i : Nat) (b : Block), writeBlock n m i b = .ok m' →
    (∀ j < 4, readWord o n m' (4 * i + j) =
      .ok (composeWord o ((List.range 8).map fun t => b.extractLsb' (8 * (8 * j + t)) 8))) ∧
    (∀ k, k / 4 ≠ i → readWord o n m' k = readWord o n m k)

/-! ## CONSTRUCT: absorption -/

/-- R103: under FOLD_ALL the absorbed buffer has `N` bytes, byte `t` being the XOR of all seed bytes `j`
with `j mod N = t`. -/
def Obligations.FoldAllXorsEverySeedByte : Prop :=
  ∀ (n : Nat) (seed : List Byte),
    absorb .foldAll n seed = (List.range n).map fun t =>
      ((List.range seed.length).filter fun j => j % n = t).foldl
        (fun acc j => acc ^^^ seed.getD j 0) 0

/-- R104: for `L <= N` both variants give the seed followed by zeros; for `L > N` LITERAL leaves out the last
`L - N * (ceil(L/N) - 1)` seed bytes, between 1 and `N` of them, and folds the rest as FOLD_ALL does. -/
def Obligations.LiteralDropsTheLastWindow : Prop :=
  ∀ (n : Nat) (seed : List Byte), 0 < n →
    (seed.length ≤ n → absorb .literal n seed = seed ++ List.replicate (n - seed.length) 0 ∧
      absorb .foldAll n seed = seed ++ List.replicate (n - seed.length) 0) ∧
    (n < seed.length →
      let kept := n * ((seed.length + n - 1) / n - 1)
      1 ≤ seed.length - kept ∧ seed.length - kept ≤ n ∧
        absorb .literal n seed = absorb .foldAll n (seed.take kept))

/-- R105, R106: a seed of at most `N` bytes is absorbed as itself followed by zeros, under both
variants. -/
def Obligations.ShortSeedsAreCopied : Prop :=
  ∀ (v : AbsorbVariant) (n : Nat) (seed : List Byte), 1 ≤ seed.length → seed.length ≤ n →
    absorb v n seed = seed ++ List.replicate (n - seed.length) 0

/-! ## CONSTRUCT: diffusion and derivation -/

/-- R120: byte `t` of the degeneracy constant is `t + 1`. -/
def Obligations.DegeneracyConstantBytes : Prop :=
  ∀ t < 32, degeneracyConstant.extractLsb' (8 * t) 8 = BitVec.ofNat 8 (t + 1)

/-- R121, R122, R124: step `i` of a round writes block `(i+1) mod M` with
`Bo xor H(A) xor H(B') xor A`, from the values A and B read at its start, and no other byte. -/
def Obligations.RingStepWritesOneMixedBlock : Prop :=
  ∀ (p : Params) (n : Nat) (m : Memory) (i : Nat) (a b : Block), n % 32 = 0 → i < n / 32 →
    readBlock n m i = .ok a → readBlock n m ((i + 1) % (n / 32)) = .ok b →
    let k := (i + 1) % (n / 32)
    let b' := if a = b then b ^^^ degeneracyConstant else b
    let bo := if p.degenUpdate = .original then b else b'
    ∃ m', ringStep p n m i = .ok m' ∧
      readBlock n m' k = .ok (bo ^^^ p.hash256 a ^^^ p.hash256 b' ^^^ a) ∧
      (∀ addr, addr < 32 * k ∨ 32 * k + 32 ≤ addr → readByte m' addr = readByte m addr) ∧
      (Memory.wf m → Memory.wf m')

/-- R124: the two DEGEN_UPDATE settings differ only where A equals B, and then by exactly `C`. -/
def Obligations.DegenSettingsDifferByTheConstant : Prop :=
  ∀ (p : Params) (a b : Block),
    mixBlocks { p with degenUpdate := .modified } a b =
      mixBlocks { p with degenUpdate := .original } a b ^^^
        (if a = b then degeneracyConstant else 0)

/-- R125: in a one-block ring a round replaces the buffer by `H(A) xor H(A xor C)` under ORIGINAL and
by `C xor H(A) xor H(A xor C)` under MODIFIED. -/
def Obligations.OneBlockRingRound : Prop :=
  ∀ (p : Params) (m : Memory) (a : Block), readBlock 32 m 0 = .ok a →
    ∃ m', diffRound p 32 m = .ok m' ∧
      readBlock 32 m' 0 = .ok
        (match p.degenUpdate with
          | .original => p.hash256 a ^^^ p.hash256 (a ^^^ degeneracyConstant)
          | .modified =>
            degeneracyConstant ^^^ p.hash256 a ^^^ p.hash256 (a ^^^ degeneracyConstant))

/-- R123, R127: a round over two or more blocks succeeds where all blocks are readable; step `i >= 1`
mixes the block step `i-1` just wrote with the old next block, and the last step mixes the new last
block with the old block 0. -/
def Obligations.RoundChainsTheRing : Prop :=
  ∀ (p : Params) (n : Nat) (m : Memory), n % 32 = 0 → 64 ≤ n →
    (∀ i < n / 32, ∃ b, readBlock n m i = .ok b) →
    ∃ m', diffRound p n m = .ok m' ∧
      (∀ k, 1 ≤ k → k < n / 32 → ∃ a b,
        readBlock n (if k = 1 then m else m') (k - 1) = .ok a ∧ readBlock n m k = .ok b ∧
        readBlock n m' k = .ok (mixBlocks p a b)) ∧
      (∃ a b, readBlock n m' (n / 32 - 1) = .ok a ∧ readBlock n m 0 = .ok b ∧
        readBlock n m' 0 = .ok (mixBlocks p a b)) ∧
      (∀ addr, n ≤ addr → readByte m' addr = readByte m addr)

/-- R144: the closed forms of the parity adjustment, that no step of it overflows, and the parity of what
it leaves. -/
def Obligations.ParityAdjustmentClosedForms : Prop :=
  ∀ v : Word,
    adjust 4 1 v = (v &&& 0xFFFFFFFFFFFFFFFC) + 1 ∧ adjust 2 1 v = v ||| 1 ∧
      adjust 2 0 v = v &&& 0xFFFFFFFFFFFFFFFE ∧
      (v - v % 4).toNat = v.toNat - v.toNat % 4 ∧ (v - v % 4).toNat + 4 ≤ 2 ^ 64 ∧
      (v - v % 2).toNat = v.toNat - v.toNat % 2 ∧ (v - v % 2).toNat + 2 ≤ 2 ^ 64 ∧
      adjust 4 1 v % 4 = 1 ∧ adjust 2 1 v % 2 = 1 ∧ adjust 2 0 v % 2 = 0

/-- R39, R100, R31: a CONSTRUCT of a legal size with a nonempty seed succeeds in UNINIT. The block is READY with
size N; the buffer holds what twelve rounds leave of the absorbed seed; the six arrays are the word
views after rounds 2, 4, …, 12, four of them adjusted as R144 says; both cursors are 0; `prev` is a
copy; the response is the status flit alone; no byte beyond the buffer changes. -/
def Obligations.ConstructLeavesTheDerivedState : Prop :=
  ∀ (s : State) (n : Word) (seed : List Byte), s.life = .uninit → seed ≠ [] → n.toNat ≠ 0 →
    n.toNat % 32 = 0 → n.toNat ≤ Config.params.nMax →
    let p := Config.params
    let ring (k : Nat) : List Block :=
      roundsBlocks p k (blocksOf (n.toNat / 32) (absorb p.absorbVariant n.toNat seed))
    let words (k : Nat) : List Word := ringWords p.wordOrder (ring k)
    ∃ t, exec (.construct n seed) s = .next t ∧
      t.life = .ready ∧ t.cfgN.toNat = n.toNat ∧
      t.cur.multX = words 2 ∧
      t.cur.multA = (words 4).map (fun v => (v &&& 0xFFFFFFFFFFFFFFFC) + 1) ∧
      t.cur.multB = (words 6).map (fun v => v ||| 1) ∧
      t.cur.xorX = words 8 ∧
      t.cur.xorA = (words 10).map (fun v => v &&& 0xFFFFFFFFFFFFFFFE) ∧
      t.cur.xorB = (words 12).map (fun v => v ||| 1) ∧
      t.cur.idxMult = 0 ∧ t.cur.idxXor = 0 ∧ t.prev = t.cur ∧
      (∀ a < n.toNat, readByte t.buf a = (ringBytes (ring 12))[a]?) ∧
      (∀ a, n.toNat ≤ a → readByte t.buf a = readByte s.buf a) ∧
      t.cmdIn = s.cmdIn ∧ t.respOut = s.respOut ++ [⟨0x100, true⟩]

/-- R101, R102, in R245's order: in UNINIT an empty seed fails with InvalidSeed whatever N is, and then
a bad N with InvalidConfig; nothing else changes. -/
def Obligations.ConstructErrorsInOrder : Prop :=
  ∀ (s : State) (n : Word) (seed : List Byte), s.life = .uninit →
    (seed.length = 0 →
      exec (.construct n seed) s = .next { s with respOut := s.respOut ++ [⟨0x001, true⟩] }) ∧
    (seed.length ≠ 0 → (n.toNat = 0 ∨ n.toNat % 32 ≠ 0 ∨ Config.params.nMax < n.toNat) →
      exec (.construct n seed) s = .next { s with respOut := s.respOut ++ [⟨0x002, true⟩] })

/-! ## Extraction -/

/-- R161, R162: one EmitOne on whole arrays with cursors in range. -/
def Obligations.EmitOneAdvancesLaneThenGenerator : Prop :=
  ∀ (w : Nat) (c : Snapshot), c.Shaped w → c.CursorsBelow w →
    let p := c.idxMult
    let q := c.idxXor
    let v := (c.multA.getD p 0 * c.multX.getD p 0 + c.multB.getD p 0) ^^^ c.xorX.getD q 0
    emitOne w c = .ok (v,
      if p + 1 = w then
        { c with
          multX := c.multX.set p v
          idxMult := 0
          xorX := c.xorX.set q ((c.xorA.getD q 0 ^^^ c.xorX.getD q 0) + c.xorB.getD q 0)
          idxXor := (q + 1) % w }
      else { c with multX := c.multX.set p v, idxMult := p + 1 })

/-- R160, R171, R173: EXTRACT_U64 with a non-negative amount succeeds in a READY state that meets the
invariant; its words are those of that many EmitOne steps in a row, its response carries exactly them,
and it writes only `mult_x`, `xor_x` and the cursors. -/
def Obligations.ExtractU64WalksTheStream : Prop :=
  ∀ (s : State) (amount : Word), s.Inv → s.life = .ready → 0 ≤ amount.toInt →
    ∃ (t : State) (words : List Word) (walk : Nat → Snapshot),
      exec (.extractU64 amount) s = .next t ∧ (words.length : Int) = amount.toInt ∧
      walk 0 = s.cur ∧ walk words.length = t.cur ∧
      (∀ (k : Nat) (h : k < words.length),
        emitOne (s.cfgN.toNat / 8) (walk k) = .ok (words[k], walk (k + 1))) ∧
      t.respOut = s.respOut ++ frameOf (0x100 :: words) ∧
      t.life = s.life ∧ t.cfgN = s.cfgN ∧ t.buf = s.buf ∧ t.prev = s.prev ∧ t.cmdIn = s.cmdIn ∧
      t.cur.multA = s.cur.multA ∧ t.cur.multB = s.cur.multB ∧ t.cur.xorA = s.cur.xorA ∧
      t.cur.xorB = s.cur.xorB

/-- R180: EXTRACT_F64 with a non-negative amount succeeds in a READY state that meets the invariant;
its results are F64Bits of the words of that many EmitOne steps, with the write set of R31. -/
def Obligations.ExtractF64WalksTheStream : Prop :=
  ∀ (s : State) (amount : Word), s.Inv → s.life = .ready → 0 ≤ amount.toInt →
    ∃ (t : State) (words : List Word) (walk : Nat → Snapshot),
      exec (.extractF64 amount) s = .next t ∧ (words.length : Int) = amount.toInt ∧
      walk 0 = s.cur ∧ walk words.length = t.cur ∧
      (∀ (k : Nat) (h : k < words.length),
        emitOne (s.cfgN.toNat / 8) (walk k) = .ok (words[k], walk (k + 1))) ∧
      t.respOut = s.respOut ++ frameOf (0x100 :: words.map f64Bits) ∧
      t.life = s.life ∧ t.cfgN = s.cfgN ∧ t.buf = s.buf ∧ t.prev = s.prev ∧ t.cmdIn = s.cmdIn ∧
      t.cur.multA = s.cur.multA ∧ t.cur.multB = s.cur.multB ∧ t.cur.xorA = s.cur.xorA ∧
      t.cur.xorB = s.cur.xorB

/-- R181: EXTRACT_F64 leaves the state EXTRACT_U64 of the same amount leaves, and answers F64Bits of
its words. -/
def Obligations.FloatsDrawTheSameStream : Prop :=
  ∀ (s t : State) (amount : Word) (words : List Word), s.life = .ready → 0 ≤ amount.toInt →
    exec (.extractU64 amount) s = .next t → t.respOut = s.respOut ++ frameOf (0x100 :: words) →
    exec (.extractF64 amount) s =
      .next { t with respOut := s.respOut ++ frameOf (0x100 :: words.map f64Bits) }

/-- R182: the pattern F64Bits gives has the value `m * 2^-53` for `m = w[52:0]`, read as binary64 (R183):
zero is +0.0, else sign 0 and `(2^52 + fraction) * 2^(exponent - 1075) = m * 2^-53`. -/
def Obligations.F64BitsHasTheExactValue : Prop :=
  ∀ w : Word,
    let m := w.toNat % 2 ^ 53
    let fraction := (f64Bits w).toNat % 2 ^ 52
    let exponent := (f64Bits w).toNat / 2 ^ 52 % 2 ^ 11
    (m = 0 → f64Bits w = 0) ∧
      (m ≠ 0 → (f64Bits w).getLsbD 63 = false ∧
        (2 ^ 52 + fraction) * 2 ^ exponent = m * 2 ^ 1022)

/-- R184: every result is +0.0 or a normal number from `2^-53` to `1 - 2^-53`, and those three are the
results of 0, of 1 and of every word whose low 53 bits are all 1. -/
def Obligations.F64BitsRange : Prop :=
  (∀ w : Word, f64Bits w = 0 ∨
    (0x3CA0000000000000 ≤ (f64Bits w).toNat ∧ (f64Bits w).toNat ≤ 0x3FEFFFFFFFFFFFFF ∧
      970 ≤ (f64Bits w).toNat / 2 ^ 52 ∧ (f64Bits w).toNat / 2 ^ 52 ≤ 1022)) ∧
  f64Bits 0 = 0 ∧ f64Bits 1 = 0x3CA0000000000000 ∧
  (∀ w : Word, w.toNat % 2 ^ 53 = 2 ^ 53 - 1 → f64Bits w = 0x3FEFFFFFFFFFFFFF)

/-- R168: `n` words from cursors `(c, x)` leave the cursors at `(c + n) mod W` and
`(x + (c + n) div W) mod W`. -/
def Obligations.CursorArithmetic : Prop :=
  ∀ (w n : Nat) (c : Snapshot), c.Shaped w → c.CursorsBelow w →
    ∃ words c', emitWords w n c = .ok (words, c') ∧ words.length = n ∧
      c'.idxMult = (c.idxMult + n) % w ∧
      c'.idxXor = (c.idxXor + (c.idxMult + n) / w) % w

/-- R166, R169: within one epoch every word is its own lane's step under the one mask, and neither
`xor_x` nor `idx_xor` moves. -/
def Obligations.MaskIsFixedWithinAnEpoch : Prop :=
  ∀ (w k : Nat) (c : Snapshot), c.Shaped w → c.CursorsBelow w → c.idxMult + k < w →
    ∃ words c', emitWords w k c = .ok (words, c') ∧ words.length = k ∧
      (∀ j < k, words[j]? = some ((c.multA.getD (c.idxMult + j) 0 * c.multX.getD (c.idxMult + j) 0 +
        c.multB.getD (c.idxMult + j) 0) ^^^ c.xorX.getD c.idxXor 0)) ∧
      c'.xorX = c.xorX ∧ c'.idxXor = c.idxXor ∧ c'.idxMult = c.idxMult + k

/-- R167: a full epoch of `W` words from lane 0 ends with the advance done: exactly the element at
`idx_xor` has advanced once, and the cursors are `(0, idx_xor + 1 mod W)`. -/
def Obligations.FullEpochAdvancesTheGeneratorOnce : Prop :=
  ∀ (w : Nat) (c : Snapshot), c.Shaped w → c.CursorsBelow w → c.idxMult = 0 →
    ∃ words c', emitWords w w c = .ok (words, c') ∧ words.length = w ∧ c'.idxMult = 0 ∧
      c'.idxXor = (c.idxXor + 1) % w ∧
      c'.xorX = c.xorX.set c.idxXor
        ((c.xorA.getD c.idxXor 0 ^^^ c.xorX.getD c.idxXor 0) + c.xorB.getD c.idxXor 0) ∧
      c'.multX = words

/-- R170: the words of EXTRACT_U64 `a` followed by EXTRACT_U64 `b` are those of one EXTRACT_U64
`a + b` from the same state, and the final states agree but for the framing of the responses. -/
def Obligations.ConsecutiveExtractionsConcatenate : Prop :=
  ∀ (s : State) (a b c : Word), s.Inv → s.life = .ready → 0 ≤ a.toInt → 0 ≤ b.toInt →
    c.toInt = a.toInt + b.toInt →
    ∃ t u v wordsA wordsB,
      exec (.extractU64 a) s = .next t ∧ t.respOut = s.respOut ++ frameOf (0x100 :: wordsA) ∧
      exec (.extractU64 b) t = .next u ∧ u.respOut = t.respOut ++ frameOf (0x100 :: wordsB) ∧
      exec (.extractU64 c) s = .next v ∧
      v.respOut = s.respOut ++ frameOf (0x100 :: (wordsA ++ wordsB)) ∧
      v = { u with respOut := v.respOut }

/-- R163: in READY an amount of 0 succeeds with an empty payload and writes no state. -/
def Obligations.ZeroAmountWritesNothing : Prop :=
  ∀ s : State, s.life = .ready →
    exec (.extractU64 0) s = .next { s with respOut := s.respOut ++ [⟨0x100, true⟩] } ∧
    exec (.extractF64 0) s = .next { s with respOut := s.respOut ++ [⟨0x100, true⟩] }

/-- R164: in READY the operand flits 0x8000000000000000 to 0xFFFFFFFFFFFFFFFF all fail with
InvalidArgument and write no state. -/
def Obligations.NegativeAmountsFail : Prop :=
  ∀ (s : State) (amount : Word), s.life = .ready → 0x8000000000000000 ≤ amount.toNat →
    exec (.extractU64 amount) s = .next { s with respOut := s.respOut ++ [⟨0x103, true⟩] } ∧
    exec (.extractF64 amount) s = .next { s with respOut := s.respOut ++ [⟨0x103, true⟩] }

/-! ## The bank -/

/-- R190: in READY, CHECKPOINT copies the six arrays and both cursors of `cur` into `prev` and changes
nothing else; the response is the status flit alone. -/
def Obligations.CheckpointCopiesCurIntoPrev : Prop :=
  ∀ s : State, s.life = .ready →
    exec .checkpoint s =
      .next { s with prev := s.cur, respOut := s.respOut ++ [⟨0x100, true⟩] }

/-- R192: in READY, RESTORE copies the six arrays and both cursors of `prev` into `cur` and changes
nothing else; the response is the status flit alone. -/
def Obligations.RestoreCopiesPrevIntoCur : Prop :=
  ∀ s : State, s.life = .ready →
    exec .restore s = .next { s with cur := s.prev, respOut := s.respOut ++ [⟨0x100, true⟩] }

/-- R193: from a checkpoint (a state whose `prev` is a copy of `cur`, as CHECKPOINT, R190, and CONSTRUCT,
R146, leave it), after any extractions and readouts and then RESTORE, every sequence of extractions and
readouts gives the responses it gives from the checkpoint, and leaves the same bank. -/
def Obligations.RestoreReplaysTheStream : Prop :=
  ∀ (s : State) (between after : List Instr), s.Inv → s.life = .ready → s.prev = s.cur →
    (∀ i ∈ between, Draws i) → (∀ i ∈ after, Draws i) →
    ∃ s₂ s₃ u v, runCommands between s = .next s₂ ∧ exec .restore s₂ = .next s₃ ∧
      runCommands after s = .next u ∧ runCommands after s₃ = .next v ∧
      newFlits s u = newFlits s₃ v ∧ v.cur = u.cur ∧ v.prev = u.prev ∧ v.buf = u.buf

/-! ## Readout -/

/-- R201, R202, R203: READ_STATE in a READY state that meets the invariant answers N, the buffer eight
bytes a flit in address order, the six current arrays and the two cursors, `3 + 7W` flits, and writes
no state. -/
def Obligations.ReadStateReturnsTheWholeState : Prop :=
  ∀ s : State, s.Inv → s.life = .ready →
    ∃ buffer : List Word,
      let payload := s.cfgN.setWidth 64 :: buffer ++ s.cur.multX ++ s.cur.multA ++ s.cur.multB
        ++ s.cur.xorX ++ s.cur.xorA ++ s.cur.xorB
        ++ [BitVec.ofNat 64 s.cur.idxMult, BitVec.ofNat 64 s.cur.idxXor]
      exec .readState s = .next { s with respOut := s.respOut ++ frameOf (0x100 :: payload) } ∧
      payload.length = 3 + 7 * (s.cfgN.toNat / 8) ∧ buffer.length = s.cfgN.toNat / 8 ∧
      ∀ k < s.cfgN.toNat / 8, ∀ t < 8,
        (buffer[k]?.map fun f => f.extractLsb' (8 * t) 8) = readByte s.buf (8 * k + t)

/-- R206: GET_STATUS succeeds in every state; it answers the status register (LIFE in bit 0, zeros in
`[31:1]`, CFG_N in `[63:32]`) and N_MAX, and writes no state. -/
def Obligations.GetStatusReportsLifeSizeAndCapacity : Prop :=
  ∀ s : State, ∃ register : Word,
    exec .getStatus s = .next { s with
      respOut := s.respOut ++ frameOf [if s.life = .ready then 0x100 else 0x000, register,
        BitVec.ofNat 64 Config.params.nMax] } ∧
    register.getLsbD 0 = decide (s.life = .ready) ∧ register.extractLsb' 1 31 = 0 ∧
    register.extractLsb' 32 32 = s.cfgN ∧
    Config.params.nMax % 32 = 0 ∧ 128 ≤ Config.params.nMax ∧ Config.params.nMax < 2 ^ 32

/-- R207: a READ_STATE or GET_STATUS put before any command changes neither that command's response nor
the state it leaves. -/
def Obligations.ReadoutsChangeNoOtherResponse : Prop :=
  ∀ (s t u : State) (r i : Instr), (r = .readState ∨ r = .getStatus) → exec r s = .next t →
    exec i s = .next u →
    ∃ v, exec i t = .next v ∧ newFlits t v = newFlits s u ∧ v = { u with respOut := v.respOut }

/-! ## The whole machine -/

/-- R38, R22: the block right after reset meets the invariant. That its arrays are empty and its
cursors 0 is the model's choice (log 8, 9). -/
def Obligations.ResetMeetsTheInvariant : Prop := State.reset.Inv

/-- R21, R22, R25 to R29, and the canonical form of the buffer: every step keeps the invariant. In UNINIT
the invariant says that no byte is listed and the arrays are empty: the model's choices after reset
(log 7, 8), where R38 leaves all of it unspecified. -/
def Obligations.StepKeepsTheInvariant : Prop :=
  ∀ s t : State, s.Inv → step s = .next t → t.Inv

/-- R240, R247: from every state that meets the invariant the step answers; the model's faults are never
raised. That an idle block's step answers too is log 11's choice, that no step stalls on a response
port nobody drains log 12's (R280 allows the stall). -/
def Obligations.StepAlwaysAnswersFromTheInvariant : Prop :=
  ∀ s : State, s.Inv → Answers (step s)

/-- R29: from construction onward both snapshots keep their parity, whatever else a state holds: reset
has the property and every step keeps it. -/
def Obligations.ParityHoldsWhileReady : Prop :=
  (State.reset.life = .ready → State.reset.cur.Parity ∧ State.reset.prev.Parity) ∧
  ∀ s t : State, (s.life = .ready → s.cur.Parity ∧ s.prev.Parity) → step s = .next t →
    t.life = .ready → t.cur.Parity ∧ t.prev.Parity

/-- R20, R270: only a reset takes the block from READY to UNINIT, and only a CONSTRUCT of a nonempty
seed and a legal size from UNINIT to READY. -/
def Obligations.LifecycleChangesOnlyByConstructAndReset : Prop :=
  ∀ s t : State, step s = .next t →
    (s.life = .ready → t.life = .uninit →
      (∃ rest, receive s.cmdIn = .reset rest) ∨
      ∃ flits k later, receive s.cmdIn = .frame flits (.abort k :: later)) ∧
    (s.life = .uninit → t.life = .ready →
      ∃ flits rest n seed, receive s.cmdIn = .frame flits rest ∧
        decodeFrame flits = .ok (.construct n seed) ∧ seed ≠ [] ∧ n.toNat ≠ 0 ∧
        n.toNat % 32 = 0 ∧ n.toNat ≤ Config.params.nMax)

/-- R25, R31: while the block stays READY, no step changes the buffer or its size. -/
def Obligations.BufferIsFixedWhileReady : Prop :=
  ∀ s t : State, step s = .next t → s.life = .ready → t.life = .ready →
    t.buf = s.buf ∧ t.cfgN = s.cfgN

/-- R28, R31, R32: only CONSTRUCT and CHECKPOINT write `prev`, and no command but RESTORE lets anything
depend on it. -/
def Obligations.PrevIsTouchedOnlyByCopies : Prop :=
  ∀ (i : Instr) (s t : State), exec i s = .next t →
    (t.prev = s.prev ∨ i = .checkpoint ∨ ∃ n seed, i = .construct n seed) ∧
    (i ≠ .restore → ∀ q : Snapshot, ∃ u, exec i { s with prev := q } = .next u ∧
      u.respOut = t.respOut ∧ u.life = t.life ∧ u.cfgN = t.cfgN ∧ u.buf = t.buf ∧ u.cur = t.cur)

/-- R58, R61: what a command does depends on neither port: with other contents there it makes the same
change and appends the same response. -/
def Obligations.CommandsIgnoreThePorts : Prop :=
  ∀ (i : Instr) (s t : State) (events : List PortEvent) (sent : List Flit), exec i s = .next t →
    exec i { s with cmdIn := events, respOut := sent } =
      .next { t with cmdIn := events, respOut := sent ++ newFlits s t }

/-- R38: no command observes an unspecified value. Two UNINIT blocks that differ only in buffer and
bank answer every command alike, and after a successful CONSTRUCT agree in all that is specified. So
the values log 7 to 9 choose are never seen. -/
def Obligations.UnspecifiedValuesAreUnobservable : Prop :=
  ∀ (i : Instr) (s : State) (buf : Memory) (cur prev : Snapshot), s.life = .uninit →
    ∃ t u, exec i s = .next t ∧ exec i { s with buf := buf, cur := cur, prev := prev } = .next u ∧
      u.respOut = t.respOut ∧ u.life = t.life ∧ u.cfgN = t.cfgN ∧ u.cmdIn = t.cmdIn ∧
      (t.life = .ready → u.cur = t.cur ∧ u.prev = t.prev ∧
        ∀ a < t.cfgN.toNat, readByte u.buf a = readByte t.buf a)

/-! ## The host's text -/

/-- From R214, with R210 and R211, and the model's choices of log 24: writing a text that was parsed gives
the same text, and every dump (state blocks of READ_STATE payloads, lines of words, lines of floats, in
any order) parses back to the parts it renders. That the parser refuses every text that is not exactly a
rendering, on which the first clause rests, and that it reads a float as the decimal its text states are
log 24's choices. -/
def Obligations.DumpParsesBackToItsPayload : Prop :=
  (∀ (text : List Char) (parts : List DumpPart), parseDump text = some parts →
    dumpText parts = text) ∧
  ∀ parts : List DumpPart,
    (∀ payload, .block payload ∈ parts → ∃ w, 1 ≤ w ∧ payload.length = 3 + 7 * w ∧
      (payload.headD 0).toNat = 8 * w) →
    (∀ values, .floats values ∈ parts → ∀ v ∈ values, v < 10 ^ 16) →
    parseDump (dumpText parts) = some parts

/-- R212: a successful CONSTRUCT is followed by a state block, a successful extraction by its output line
and a state block, from the payload READ_STATE then answers; the other commands write nothing. The
texts of a sequence of calls stand in call order. That a refused call writes nothing is log 25's. -/
def Obligations.HostDumpSchedule : Prop :=
  (∀ (i : Instr) (s t u : State) (payload state : List Word) (output : List DumpPart),
    exec i s = .next t → t.respOut = s.respOut ++ frameOf (0x100 :: payload) →
    exec .readState t = .next u → u.respOut = t.respOut ++ frameOf (0x100 :: state) →
    (((∃ n seed, i = .construct n seed) ∧ output = []) ∨
      ((∃ amount, i = .extractU64 amount) ∧ output = [.words payload]) ∨
      ((∃ amount, i = .extractF64 amount) ∧ output = [.floats (payload.map floatScaled)])) →
    hostCall i s = .next (output ++ [.block state], u)) ∧
  (∀ (i : Instr) (s t : State), exec i s = .next t →
    ((i = .checkpoint ∨ i = .restore ∨ i = .readState ∨ i = .getStatus) ∨
      ∃ c, c ≠ Code.ok ∧ t.respOut = s.respOut ++ [⟨statusFlit c s.life, true⟩]) →
    hostCall i s = .next ([], t)) ∧
  (∀ (calls later : List Instr) (s t u : State) (written after : List DumpPart),
    hostSession calls s = .next (written, t) → hostSession later t = .next (after, u) →
    hostSession (calls ++ later) s = .next (written ++ after, u))
end

