-- ==== Sys2Proof/Laws/Bytes.lean ====
section
/-! SUPPORT. Packing and unpacking byte strings are inverse (R71). -/

namespace Sys2Proof

theorem bytesToNat_lt (bs : List Byte) : bytesToNat bs < 256 ^ bs.length := by
  induction bs with
  | nil => simp [bytesToNat]
  | cons b bs ih =>
    have hb : b.toNat < 256 := b.isLt
    simp only [bytesToNat, List.length_cons, pow_succ]
    omega

/-- The base-256 digits of a byte string's number are its bytes. -/
theorem bytesToNat_digit (bs : List Byte) (t : Nat) (ht : t < bs.length) :
    bytesToNat bs / 256 ^ t % 256 = (bs[t]).toNat := by
  induction bs generalizing t with
  | nil => simp at ht
  | cons b bs ih =>
    have hb : b.toNat < 256 := b.isLt
    cases t with
    | zero => simp only [bytesToNat, pow_zero, Nat.div_one, List.getElem_cons_zero]; omega
    | succ t =>
      have h1 : (b.toNat + 256 * bytesToNat bs) / 256 = bytesToNat bs := by omega
      have := ih t (by simpa using ht)
      simp only [bytesToNat, List.getElem_cons_succ]
      rw [pow_succ', ← Nat.div_div_eq_div_mul, h1, this]

/-- A byte of a packed string is the string's byte. -/
theorem byteOf_packBytes {w : Nat} {bs : List Byte} (hw : 8 * bs.length ≤ w) {t : Nat}
    (ht : t < bs.length) : byteOf (packBytes w bs) t = bs[t] := by
  apply BitVec.eq_of_toNat_eq
  have hlt : bytesToNat bs < 2 ^ w :=
    lt_of_lt_of_le (bytesToNat_lt bs) (by
      rw [show (256 : Nat) = 2 ^ 8 by rfl, ← pow_mul]; exact Nat.pow_le_pow_right (by omega) hw)
  rw [byteOf, packBytes, BitVec.extractLsb'_toNat, BitVec.toNat_ofNat, Nat.mod_eq_of_lt hlt,
    Nat.shiftRight_eq_div_pow, pow_mul]
  exact bytesToNat_digit bs t ht

/-- Unpacking a packed string of `n` bytes gives it back. -/
theorem unpackBytes_packBytes {w : Nat} {bs : List Byte} (hw : 8 * bs.length ≤ w) :
    unpackBytes bs.length (packBytes w bs) = bs := by
  apply List.ext_getElem
  · simp [unpackBytes]
  · intro t h1 h2
    simp [unpackBytes, byteOf_packBytes hw h2]

@[simp] theorem unpackBytes_length {w n : Nat} (v : BitVec w) : (unpackBytes n v).length = n := by
  simp [unpackBytes]

/-- Two values of `n` bytes with the same bytes are equal. -/
theorem eq_of_byteOf_eq {n : Nat} {v v' : BitVec (8 * n)} (h : ∀ t < n, byteOf v t = byteOf v' t) :
    v = v' := by
  apply BitVec.eq_of_getLsbD_eq
  intro i hi
  have h8 := congrArg (fun b : Byte => b.getLsbD (i % 8)) (h (i / 8) (by omega))
  have hm : i % 8 < 8 := Nat.mod_lt _ (by omega)
  simp only [byteOf, BitVec.getLsbD_extractLsb', hm, decide_true, Bool.true_and] at h8
  rwa [show 8 * (i / 8) + i % 8 = i by omega] at h8

/-- Packing the bytes of a value of `n` bytes gives it back. -/
theorem packBytes_unpackBytes {n : Nat} (v : BitVec (8 * n)) :
    packBytes (8 * n) (unpackBytes n v) = v := by
  refine eq_of_byteOf_eq fun t ht => ?_
  rw [byteOf_packBytes (by simp) (by simpa using ht)]
  simp [unpackBytes]

end Sys2Proof
end

