-- ==== Sys2Proof/Laws/Memory.lean ====
section
/-! SUPPORT. The laws of the state buffer: read after write, the canonical form, and what MemRead and
MemWrite can do. -/

namespace Sys2Proof.Machine

theorem readByte_writeByte (m : Memory) (a : Nat) (v : Byte) (b : Nat) :
    readByte (writeByte m a v) b = if b = a then some v else readByte m b := by
  induction m with
  | nil => simp [writeByte, readByte]
  | cons c rest ih =>
    obtain ⟨k, w⟩ := c
    simp only [writeByte]
    split
    · simp [readByte]
    · split
      · subst k; simp only [readByte]; split <;> simp_all
      · simp only [readByte, ih]
        split
        · subst b; rw [if_neg (fun h => by omega)]
        · rfl

/-- The addresses a write leaves listed. -/
theorem mem_addresses_writeByte (m : Memory) (a : Nat) (v : Byte) (c : Host.Cell) :
    c ∈ writeByte m a v → c.1 = a ∨ c ∈ m := by
  induction m with
  | nil => simp only [writeByte, List.mem_singleton]; rintro rfl; exact .inl rfl
  | cons d rest ih =>
    obtain ⟨k, w⟩ := d
    simp only [writeByte]
    split
    · rw [List.mem_cons]; rintro (rfl | h)
      · exact .inl rfl
      · exact .inr h
    · split
      · rw [List.mem_cons]; rintro (rfl | h)
        · exact .inl rfl
        · exact .inr (.tail _ h)
      · rw [List.mem_cons]; rintro (rfl | h)
        · exact .inr (.head _)
        · exact (ih h).imp_right (.tail _)

/-- A write keeps the canonical form. -/
theorem writeByte_wf {m : Memory} (h : Memory.wf m) (a : Nat) (v : Byte) :
    Memory.wf (writeByte m a v) := by
  induction m with
  | nil => simp [writeByte]
  | cons d rest ih =>
    obtain ⟨k, w⟩ := d
    rw [Memory.wf, List.pairwise_cons] at h
    obtain ⟨hlt, hrest⟩ := h
    simp only [writeByte]
    split
    · rename_i hak
      refine List.pairwise_cons.2 ⟨?_, List.pairwise_cons.2 ⟨hlt, hrest⟩⟩
      rintro c (_ | ⟨_, hc⟩)
      · exact hak
      · exact Nat.lt_trans hak (hlt c hc)
    · split
      · subst k; exact List.pairwise_cons.2 ⟨hlt, hrest⟩
      · refine List.pairwise_cons.2 ⟨fun c hc => ?_, ih hrest⟩
        rcases mem_addresses_writeByte _ _ _ _ hc with h | h
        · simp only [h]; omega
        · exact hlt c h

theorem writeBytes_wf {m : Memory} (h : Memory.wf m) (a : Nat) (vs : List Byte) :
    Memory.wf (writeBytes m a vs) := by
  induction vs generalizing m a with
  | nil => exact h
  | cons v vs ih => exact ih (writeByte_wf h a v) (a + 1)

/-- Where a multi-byte write lands, and that it lands nowhere else. -/
theorem readByte_writeBytes (m : Memory) (a : Nat) (vs : List Byte) (b : Nat) :
    readByte (writeBytes m a vs) b =
      if a ≤ b ∧ b < a + vs.length then vs[b - a]? else readByte m b := by
  induction vs generalizing m a with
  | nil =>
    have : ¬ (a ≤ b ∧ b < a + ([] : List Byte).length) := by simp
    rw [if_neg this]; rfl
  | cons v vs ih =>
    simp only [writeBytes, ih, readByte_writeByte, List.length_cons]
    by_cases hab : b = a
    · subst b; simp
    · by_cases h1 : a + 1 ≤ b ∧ b < a + 1 + vs.length
      · have h2 : a ≤ b ∧ b < a + (vs.length + 1) := by omega
        have h3 : b - a = (b - (a + 1)) + 1 := by omega
        rw [if_pos h1, if_pos h2, h3, List.getElem?_cons_succ]
      · have h2 : ¬ (a ≤ b ∧ b < a + (vs.length + 1)) := by omega
        rw [if_neg h1, if_neg h2, if_neg hab]

/-- What a multi-byte read answers: the bytes held, in address order. -/
theorem readBytes_eq_ok {m : Memory} {a k : Nat} {vs : List Byte} :
    readBytes m a k = .ok vs ↔ vs.length = k ∧ ∀ t < k, readByte m (a + t) = vs[t]? := by
  induction k generalizing a vs with
  | zero =>
    simp only [readBytes, Except.ok.injEq]
    constructor
    · rintro rfl; simp
    · rintro ⟨h, -⟩; exact (List.length_eq_zero_iff.1 h).symm
  | succ k ih =>
    simp only [readBytes]
    constructor
    · intro h
      cases hv : readByte m a with
      | none => rw [hv] at h; cases h
      | some v =>
        rw [hv] at h
        cases hr : readBytes m (a + 1) k with
        | error f => simp only [hr] at h; cases h
        | ok ws =>
          simp only [hr, Except.map, Except.ok.injEq] at h
          obtain ⟨hl, hb⟩ := ih.1 hr
          subst h
          refine ⟨by simp [hl], fun t ht => ?_⟩
          cases t with
          | zero => simpa using hv
          | succ t =>
            have := hb t (by omega)
            rw [show a + (t + 1) = a + 1 + t by omega, this, List.getElem?_cons_succ]
    · rintro ⟨hl, hb⟩
      cases vs with
      | nil => simp at hl
      | cons v vs =>
        have h0 := hb 0 (by omega)
        simp only [Nat.add_zero, List.getElem?_cons_zero] at h0
        have hr : readBytes m (a + 1) k = .ok vs := by
          refine ih.2 ⟨by simpa using hl, fun t ht => ?_⟩
          have := hb (t + 1) (by omega)
          rwa [List.getElem?_cons_succ, show a + (t + 1) = a + 1 + t by omega] at this
        rw [h0, hr]; rfl

/-- Everything MemRead can answer (R17). -/
theorem memRead_eq_ok {n : Nat} {m : Memory} {a k : Nat} {vs : List Byte} :
    memRead n m a k = .ok vs ↔
      a + k ≤ n ∧ vs.length = k ∧ ∀ t < k, readByte m (a + t) = vs[t]? := by
  unfold memRead
  split
  · rename_i h; simp [readBytes_eq_ok, h]
  · rename_i h; simp [h]

/-- Everything MemWrite can answer (R17). -/
theorem memWrite_eq_ok {n : Nat} {m m' : Memory} {a : Nat} {vs : List Byte} :
    memWrite n m a vs = .ok m' ↔ a + vs.length ≤ n ∧ m' = writeBytes m a vs := by
  unfold memWrite
  split
  · rename_i h; simp [h, eq_comm]
  · rename_i h; simp [h]

theorem readByte_isSome_iff (m : Memory) (a : Nat) :
    (∃ v, readByte m a = some v) ↔ a ∈ m.map Prod.fst := by
  induction m with
  | nil => simp [readByte]
  | cons c rest ih =>
    obtain ⟨k, w⟩ := c
    simp only [readByte, List.map_cons, List.mem_cons]
    split
    · simp_all
    · simp_all

/-- Strictly rising lists of numbers with the same members are equal. -/
theorem eq_of_mem_iff_of_rising {l l' : List Nat} (h : l.Pairwise (· < ·)) (h' : l'.Pairwise (· < ·))
    (hm : ∀ a, a ∈ l ↔ a ∈ l') : l = l' := by
  have hp : l.Perm l' :=
    (List.perm_ext_iff_of_nodup (h.imp Nat.ne_of_lt) (h'.imp Nat.ne_of_lt)).2 hm
  exact hp.eq_of_pairwise (fun a b _ _ h1 h2 => absurd h1 (by omega)) h h'

/-- A buffer lists exactly the addresses `0 .. n-1` when it is in canonical form and holds a value at
those addresses and no other. -/
theorem addresses_eq_range_iff {m : Memory} {n : Nat} :
    m.map Prod.fst = List.range n ↔
      Memory.wf m ∧ ∀ a, (∃ v, readByte m a = some v) ↔ a < n := by
  constructor
  · intro h
    refine ⟨?_, fun a => by rw [readByte_isSome_iff, h, List.mem_range]⟩
    have : (m.map Prod.fst).Pairwise (· < ·) := h ▸ List.pairwise_lt_range
    exact List.pairwise_map.1 this
  · rintro ⟨hw, hm⟩
    exact eq_of_mem_iff_of_rising (List.pairwise_map.2 hw) List.pairwise_lt_range
      fun a => by rw [← readByte_isSome_iff, hm, List.mem_range]

/-- A write inside a buffer that lists `0 .. n-1` leaves it listing those. -/
theorem addresses_writeBytes {m : Memory} {n : Nat} (h : m.map Prod.fst = List.range n) {a : Nat}
    {vs : List Byte} (hn : a + vs.length ≤ n) :
    (writeBytes m a vs).map Prod.fst = List.range n := by
  rw [addresses_eq_range_iff] at h ⊢
  refine ⟨writeBytes_wf h.1 a vs, fun b => ?_⟩
  rw [readByte_writeBytes]
  split
  · rename_i hb
    rw [List.getElem?_eq_getElem (show b - a < vs.length by omega)]
    simp; omega
  · exact h.2 b

/-- The buffer of `n` bytes holds a value at each of its addresses. -/
def Memory.Holds (n : Nat) (m : Memory) : Prop := ∀ a < n, ∃ v, readByte m a = some v

theorem Memory.Holds.writeBytes {n : Nat} {m : Memory} (h : Memory.Holds n m) (a : Nat)
    (vs : List Byte) : Memory.Holds n (writeBytes m a vs) := by
  intro b hb
  rw [readByte_writeBytes]
  split
  · rename_i hab
    exact ⟨vs[b - a]'(by omega), List.getElem?_eq_getElem (by omega)⟩
  · exact h b hb

theorem Memory.Holds.of_addresses {m : Memory} {n : Nat} (h : m.map Prod.fst = List.range n) :
    Memory.Holds n m := fun a ha => ((addresses_eq_range_iff.1 h).2 a).2 ha

/-- A read inside a buffer that holds values succeeds. -/
theorem Memory.Holds.memRead {n : Nat} {m : Memory} (h : Memory.Holds n m) {a k : Nat}
    (hk : a + k ≤ n) : ∃ vs, memRead n m a k = .ok vs ∧ vs.length = k := by
  refine ⟨(List.range k).map fun t => (readByte m (a + t)).getD 0, ?_, by simp⟩
  rw [memRead_eq_ok]
  refine ⟨hk, by simp, fun t ht => ?_⟩
  obtain ⟨v, hv⟩ := h (a + t) (by omega)
  simp [hv, ht]

end Sys2Proof.Machine
end

