-- ==== Sys2Proof/Laws/Ops.lean ====
section
/-! SUPPORT. What each shared operation can answer, said once. -/

namespace Sys2Proof.Machine

theorem readElem_eq_ok {xs : List Word} {i : Nat} {v : Word} :
    readElem xs i = .ok v ↔ xs[i]? = some v := by
  unfold readElem; cases xs[i]? <;> simp

theorem readElem_of_lt {xs : List Word} {i : Nat} (h : i < xs.length) : readElem xs i = .ok xs[i] :=
  readElem_eq_ok.2 (List.getElem?_eq_getElem h)

theorem writeElem_eq_ok {xs ys : List Word} {i : Nat} {v : Word} :
    writeElem xs i v = .ok ys ↔ i < xs.length ∧ ys = xs.set i v := by
  unfold writeElem; split <;> simp_all [eq_comm]

theorem writeElem_of_lt {xs : List Word} {i : Nat} {v : Word} (h : i < xs.length) :
    writeElem xs i v = .ok (xs.set i v) := writeElem_eq_ok.2 ⟨h, rfl⟩

/-- A sequence of computations succeeds with these answers exactly when each does. -/
theorem mapM_eq_ok {α β ε : Type} {f : α → Except ε β} {l : List α} {r : List β} :
    l.mapM f = .ok r ↔ r.length = l.length ∧ ∀ (k : Nat) (a : α), l[k]? = some a →
      ∃ b, r[k]? = some b ∧ f a = .ok b := by
  induction l generalizing r with
  | nil =>
    simp only [List.mapM_nil, pure, Except.pure, Except.ok.injEq, List.length_nil]
    constructor
    · rintro rfl; simp
    · rintro ⟨h, -⟩; exact (List.length_eq_zero_iff.1 h).symm
  | cons x l ih =>
    simp only [List.mapM_cons, bind, Except.bind, pure, Except.pure]
    constructor
    · intro h
      cases hx : f x with
      | error e => simp [hx] at h
      | ok b =>
        cases hl : l.mapM f with
        | error e => simp [hx, hl] at h
        | ok bs =>
          simp only [hx, hl, Except.ok.injEq] at h
          subst h
          obtain ⟨hlen, hb⟩ := ih.1 hl
          refine ⟨by simp [hlen], fun k a hk => ?_⟩
          cases k with
          | zero => simp only [List.getElem?_cons_zero, Option.some.injEq] at hk; subst hk; exact ⟨b, rfl, hx⟩
          | succ k => exact hb k a hk
    · rintro ⟨hlen, hb⟩
      cases r with
      | nil => simp at hlen
      | cons b bs =>
        obtain ⟨b', h1, h2⟩ := hb 0 x rfl
        simp only [List.getElem?_cons_zero, Option.some.injEq] at h1
        subst h1
        have hl : l.mapM f = .ok bs :=
          ih.2 ⟨by simpa using hlen, fun k a hk => by simpa using hb (k + 1) a (by simpa using hk)⟩
        rw [h2, hl]

/-- Reading all elements of an array of `w` words answers the array (R200). -/
theorem readElems_of_length {w : Nat} {xs : List Word} (h : xs.length = w) :
    readElems w xs = .ok xs := by
  refine mapM_eq_ok.2 ⟨by simp [h], fun k a hk => ?_⟩
  obtain ⟨hlt, rfl⟩ := List.getElem?_eq_some_iff.1 hk
  simp only [List.length_range] at hlt
  exact ⟨xs[k], List.getElem?_eq_getElem (h ▸ hlt), by simpa using readElem_of_lt (h ▸ hlt)⟩

/-- Everything `requireLife` can do (R243). -/
theorem requireLife_eq (l : Life) (s : State) (body : Result) :
    requireLife l s body = if s.life = l then body else .next (respond .invalidState [] s) := rfl

@[simp] theorem requireLife_of_eq {l : Life} {s : State} (h : s.life = l) (body : Result) :
    requireLife l s body = body := by simp [requireLife_eq, h]

@[simp] theorem requireLife_of_ne {l : Life} {s : State} (h : s.life ≠ l) (body : Result) :
    requireLife l s body = .next (respond .invalidState [] s) := by simp [requireLife_eq, h]

/-- Everything `whenOk` can answer with a next state. -/
theorem whenOk_eq_next {α : Type} {r : Except Fault α} {body : α → Result} {t : State} :
    whenOk r body = .next t ↔ ∃ a, r = .ok a ∧ body a = .next t := by
  cases r <;> simp [whenOk]

@[simp] theorem whenOk_ok {α : Type} (a : α) (body : α → Result) : whenOk (.ok a) body = body a := rfl

theorem complete_eq (payload : List Word) (s : State) :
    complete payload s = .next (respond .ok payload s) := rfl

theorem raiseError_eq (c : Code) (s : State) : raiseError c s = .next (respond c [] s) := rfl

@[simp] theorem frameOf_data (vs : List Word) : (frameOf vs).map Flit.data = vs := by
  fun_induction frameOf vs <;> simp_all

@[simp] theorem frameOf_length (vs : List Word) : (frameOf vs).length = vs.length := by
  have h := congrArg List.length (frameOf_data vs)
  rwa [List.length_map] at h

end Sys2Proof.Machine
end

