-- ==== Sys2Proof/Laws/Diffuser.lean ====
section
/-! SUPPORT. What the block accesses, the ring steps and the rounds can do: they succeed on a buffer
that holds its bytes, keep its addresses, and act on its blocks as the list form of Safety.lean does. -/

namespace Sys2Proof.Machine

/-- Everything a block read can answer (R53). -/
theorem readBlock_eq_ok {n : Nat} {m : Memory} {i : Nat} {b : Block} :
    readBlock n m i = .ok b ↔
      32 * i + 32 ≤ n ∧ ∀ t < 32, readByte m (32 * i + t) = some (byteOf b t) := by
  unfold readBlock
  constructor
  · intro h
    cases hr : memRead n m (32 * i) 32 with
    | error f => rw [hr] at h; cases h
    | ok vs =>
      rw [hr] at h
      simp only [Except.map, Except.ok.injEq] at h
      obtain ⟨hn, hl, hb⟩ := memRead_eq_ok.1 hr
      refine ⟨hn, fun t ht => ?_⟩
      rw [hb t ht, ← h, byteOf_packBytes (by omega) (by omega), List.getElem?_eq_getElem]
  · rintro ⟨hn, hb⟩
    have hr : memRead n m (32 * i) 32 = .ok (unpackBytes 32 b) := by
      refine memRead_eq_ok.2 ⟨hn, by simp, fun t ht => ?_⟩
      rw [hb t ht]; simp [unpackBytes, ht]
    rw [hr]
    exact congrArg Except.ok (packBytes_unpackBytes (n := 32) b)

/-- A block access inside a buffer that holds its bytes succeeds. -/
theorem Memory.Holds.readBlock {n : Nat} {m : Memory} (h : Memory.Holds n m) {i : Nat}
    (hi : 32 * i + 32 ≤ n) : ∃ b, readBlock n m i = .ok b := by
  obtain ⟨vs, hv, -⟩ := h.memRead (a := 32 * i) (k := 32) hi
  exact ⟨packBytes 256 vs, by rw [Machine.readBlock, hv]; rfl⟩

/-- Everything a block write can do. -/
theorem writeBlock_eq_ok {n : Nat} {m m' : Memory} {i : Nat} {b : Block} :
    writeBlock n m i b = .ok m' ↔
      32 * i + 32 ≤ n ∧ m' = writeBytes m (32 * i) (unpackBytes 32 b) := by
  simp [writeBlock, memWrite_eq_ok]

/-- Read after write of blocks: the written block reads as the value, every other as before. -/
theorem readBlock_writeBytes {n : Nat} (m : Memory) {i k : Nat} (b : Block) (hk : 32 * k + 32 ≤ n)
    {c : Block} (hi : readBlock n m i = .ok c) :
    readBlock n (writeBytes m (32 * k) (unpackBytes 32 b)) i = .ok (if i = k then b else c) := by
  obtain ⟨hn, hc⟩ := readBlock_eq_ok.1 hi
  refine readBlock_eq_ok.2 ⟨hn, fun t ht => ?_⟩
  rw [readByte_writeBytes, unpackBytes_length]
  by_cases h : i = k
  · subst h
    rw [if_pos (by omega), if_pos rfl, show 32 * i + t - 32 * i = t by omega]
    simp [unpackBytes, ht]
  · rw [if_neg (by omega), if_neg h, hc t ht]

/-- The blocks of a buffer of `n` bytes, as a list. -/
def Memory.Ring (n : Nat) (m : Memory) (ring : List Block) : Prop :=
  ring.length = blockCount n ∧ ∀ (i : Nat) (h : i < ring.length), readBlock n m i = .ok ring[i]

theorem blockCount_le (n : Nat) {i : Nat} (h : i < blockCount n) : 32 * i + 32 ≤ n := by
  unfold blockCount at h; omega

/-- THE ring step (R121 to R124): in a buffer with blocks `ring` it succeeds, its only effect is the
bytes of block `(i + 1) mod M`, and it leaves the blocks `ringStepBlocks` gives. -/
theorem ringStep_spec (p : Params) {n : Nat} {m : Memory} {ring : List Block}
    (h : Memory.Ring n m ring) {i : Nat} (hi : i < blockCount n) :
    ∃ b : Block, ringStep p n m i = .ok (writeBytes m (32 * ((i + 1) % blockCount n)) (unpackBytes 32 b)) ∧
      Memory.Ring n (writeBytes m (32 * ((i + 1) % blockCount n)) (unpackBytes 32 b))
        (ringStepBlocks p ring i) := by
  obtain ⟨hl, hr⟩ := h
  have hpos : 0 < blockCount n := by omega
  have hk : (i + 1) % blockCount n < blockCount n := Nat.mod_lt _ hpos
  set k := (i + 1) % blockCount n with hkdef
  have ha := hr i (by omega)
  have hb := hr k (by omega)
  refine ⟨mixBlocks p ring[i] ring[k], ?_, ?_⟩
  · simp only [ringStep, ← hkdef, ha, hb, bind, Except.bind]
    exact writeBlock_eq_ok.2 ⟨blockCount_le n hk, rfl⟩
  · have hk' : (i + 1) % ring.length = k := by rw [hl]
    refine ⟨by simp [ringStepBlocks, hl], fun j hj => ?_⟩
    have hj' : j < ring.length := by simpa [ringStepBlocks] using hj
    rw [readBlock_writeBytes m _ (blockCount_le n hk) (hr j hj')]
    simp only [ringStepBlocks, hk', List.getElem_set]
    congr 1
    by_cases hjk : j = k
    · subst hjk
      simp [List.getD_eq_getElem?_getD, List.getElem?_eq_getElem (show i < ring.length by omega),
        List.getElem?_eq_getElem hj']
    · rw [if_neg hjk, if_neg (Ne.symm hjk)]

theorem ringStepBlocks_length (p : Params) (ring : List Block) (i : Nat) :
    (ringStepBlocks p ring i).length = ring.length := by simp [ringStepBlocks]

/-- The steps of a part of a round. -/
theorem ringSteps_spec (p : Params) {n : Nat} {m : Memory} {ring : List Block}
    (h : Memory.Ring n m ring) (steps : List Nat) (hs : ∀ i ∈ steps, i < blockCount n) :
    ∃ m', steps.foldlM (ringStep p n) m = .ok m' ∧
      Memory.Ring n m' (steps.foldl (ringStepBlocks p) ring) ∧
      (m.map Prod.fst = List.range n → m'.map Prod.fst = List.range n) ∧
      ∀ a, n ≤ a → readByte m' a = readByte m a := by
  induction steps generalizing m ring with
  | nil => exact ⟨m, rfl, h, id, fun _ _ => rfl⟩
  | cons i steps ih =>
    obtain ⟨b, hb, hring⟩ := ringStep_spec p h (hs i (by simp))
    have hle := blockCount_le n (Nat.mod_lt (i + 1) (by have := hs i (by simp); omega))
    obtain ⟨m', hm', hr', ha', hf'⟩ := ih hring (fun j hj => hs j (by simp [hj]))
    refine ⟨m', by simp only [List.foldlM_cons, hb, bind, Except.bind]; exact hm', hr',
      fun ha => ha' (addresses_writeBytes ha (by simpa using hle)), fun a han => ?_⟩
    rw [hf' a han, readByte_writeBytes, if_neg (by simp; omega)]

/-- A round (R123): what it leaves, and that it touches nothing beyond the buffer. -/
theorem diffRound_spec (p : Params) {n : Nat} {m : Memory} {ring : List Block}
    (h : Memory.Ring n m ring) :
    ∃ m', diffRound p n m = .ok m' ∧ Memory.Ring n m' (roundBlocks p ring) ∧
      (m.map Prod.fst = List.range n → m'.map Prod.fst = List.range n) ∧
      ∀ a, n ≤ a → readByte m' a = readByte m a := by
  have := ringSteps_spec p h (List.range (blockCount n)) (fun i hi => by simpa using hi)
  rwa [show (List.range (blockCount n)).foldl (ringStepBlocks p) ring = roundBlocks p ring by
    rw [roundBlocks, h.1]] at this

/-- NextState (R126). -/
theorem nextState_spec (p : Params) {n : Nat} {m : Memory} {ring : List Block}
    (h : Memory.Ring n m ring) :
    ∃ m', nextState p n m = .ok m' ∧ Memory.Ring n m' (roundsBlocks p 2 ring) ∧
      (m.map Prod.fst = List.range n → m'.map Prod.fst = List.range n) ∧
      ∀ a, n ≤ a → readByte m' a = readByte m a := by
  obtain ⟨m1, h1, hr1, ha1, hf1⟩ := diffRound_spec p h
  obtain ⟨m2, h2, hr2, ha2, hf2⟩ := diffRound_spec p hr1
  exact ⟨m2, by simp only [nextState, h1, bind, Except.bind]; exact h2, hr2, fun h => ha2 (ha1 h),
    fun a ha => (hf2 a ha).trans (hf1 a ha)⟩

/-- A buffer that holds its bytes has blocks. -/
theorem Memory.Holds.ring {n : Nat} {m : Memory} (h : Memory.Holds n m) :
    ∃ ring, Memory.Ring n m ring := by
  refine ⟨(List.range (blockCount n)).map fun i =>
    match Machine.readBlock n m i with | .ok b => b | .error _ => 0, by simp, fun i hi => ?_⟩
  obtain ⟨b, hb⟩ := h.readBlock (blockCount_le n (by simpa using hi))
  simp [hb]

/-- The blocks of a buffer of whole blocks are all of its bytes. -/
theorem Memory.Ring.readByte {n : Nat} {m : Memory} {ring : List Block} (h : Memory.Ring n m ring)
    {i t : Nat} (hi : i < ring.length) (ht : t < 32) :
    readByte m (32 * i + t) = some (byteOf ring[i] t) :=
  (readBlock_eq_ok.1 (h.2 i hi)).2 t ht

/-- Reading eight bytes inside one block. -/
theorem Memory.Ring.memRead_word {n : Nat} {m : Memory} {ring : List Block}
    (h : Memory.Ring n m ring) {i j : Nat} (hi : i < ring.length) (hj : j < 4) :
    memRead n m (8 * (4 * i + j)) 8 = .ok (((unpackBytes 32 ring[i]).drop (8 * j)).take 8) := by
  have hle := (readBlock_eq_ok.1 (h.2 i hi)).1
  refine memRead_eq_ok.2 ⟨by omega, by simp; omega, fun t ht => ?_⟩
  rw [show 8 * (4 * i + j) + t = 32 * i + (8 * j + t) by ring, h.readByte hi (by omega)]
  rw [List.getElem?_take_of_lt ht, List.getElem?_drop]
  simp [unpackBytes, show 8 * j + t < 32 by omega]

/-- `k`-th element of a list of equal-length pieces laid end to end. -/
theorem getElem?_flatMap_of_length {α β : Type} {c : Nat} (f : α → List β) (hf : ∀ a, (f a).length = c)
    (l : List α) (i j : Nat) (hj : j < c) : (l.flatMap f)[c * i + j]? = l[i]?.bind fun a => (f a)[j]? := by
  induction l generalizing i with
  | nil => simp
  | cons a l ih =>
    cases i with
    | zero => simp [List.getElem?_append, hf a, hj]
    | succ i =>
      rw [List.flatMap_cons, List.getElem?_append_right (by rw [hf a]; nlinarith)]
      rw [hf a, show c * (i + 1) + j - c = c * i + j by rw [Nat.mul_succ]; omega, ih]
      simp

theorem ringWords_length (o : WordOrder) (ring : List Block) :
    (ringWords o ring).length = 4 * ring.length := by
  induction ring with
  | nil => rfl
  | cons b ring ih => simp only [ringWords, List.flatMap_cons, List.length_append, List.length_map,
      List.length_range, List.length_cons] at ih ⊢; omega

/-- The word view of a buffer of whole blocks (R54, R55). -/
theorem Memory.Ring.wordView {n : Nat} {m : Memory} {ring : List Block} (h : Memory.Ring n m ring)
    (o : WordOrder) (hn : n % 32 = 0) : wordView o n m = .ok (ringWords o ring) := by
  have hl := h.1
  unfold blockCount at hl
  refine mapM_eq_ok.2 ⟨by simp [ringWords_length, wordCount]; omega, fun k a hk => ?_⟩
  obtain ⟨hlt, rfl⟩ := List.getElem?_eq_some_iff.1 hk
  simp only [List.length_range, wordCount] at hlt
  have hi : k / 4 < ring.length := by omega
  have hj : k % 4 < 4 := Nat.mod_lt _ (by omega)
  have hkk : 4 * (k / 4) + k % 4 = k := Nat.div_add_mod k 4
  refine ⟨composeWord o (((unpackBytes 32 ring[k / 4]).drop (8 * (k % 4))).take 8), ?_, ?_⟩
  · have := getElem?_flatMap_of_length
      (fun b => (List.range 4).map fun j => composeWord o (((unpackBytes 32 b).drop (8 * j)).take 8))
      (fun b => by simp) ring (k / 4) (k % 4) hj
    rw [hkk] at this
    rw [ringWords, this]
    simp [List.getElem?_eq_getElem hi, hj]
  · have hw := h.memRead_word hi hj
    rw [hkk] at hw
    simp only [List.getElem_range, readWord, hw]
    rfl

/-- One array of the ParameterDeriver (R141, R142). -/
theorem nextArray_spec (p : Params) {n : Nat} {m : Memory} {ring : List Block}
    (h : Memory.Ring n m ring) (hn : n % 32 = 0) :
    ∃ m', nextArray p n m = .ok (ringWords p.wordOrder (roundsBlocks p 2 ring), m') ∧
      Memory.Ring n m' (roundsBlocks p 2 ring) ∧
      (m.map Prod.fst = List.range n → m'.map Prod.fst = List.range n) ∧
      ∀ a, n ≤ a → readByte m' a = readByte m a := by
  obtain ⟨m', h', hr', ha', hf'⟩ := nextState_spec p h
  refine ⟨m', ?_, hr', ha', hf'⟩
  simp only [nextArray, h', hr'.wordView p.wordOrder hn, bind, Except.bind, pure, Except.pure]

theorem roundsBlocks_add (p : Params) (j k : Nat) (ring : List Block) :
    roundsBlocks p (j + k) ring = roundsBlocks p k (roundsBlocks p j ring) := by
  induction j generalizing ring with
  | zero => simp [roundsBlocks]
  | succ j ih => rw [Nat.succ_add]; exact ih _

theorem roundsBlocks_length (p : Params) (k : Nat) (ring : List Block) :
    (roundsBlocks p k ring).length = ring.length := by
  have h1 : ∀ ring, (roundBlocks p ring).length = ring.length := fun ring => by
    unfold roundBlocks
    generalize List.range ring.length = steps
    induction steps generalizing ring with
    | nil => rfl
    | cons i steps ih => rw [List.foldl_cons, ih, ringStepBlocks_length]
  induction k generalizing ring with
  | zero => rfl
  | succ k ih => exact (ih _).trans (h1 ring)

end Sys2Proof.Machine
end

