-- ==== Sys2Proof/Laws/Construct.lean ====
section
/-! SUPPORT. What absorption, derivation and the body of CONSTRUCT leave. -/

namespace Sys2Proof.Machine

@[simp] theorem xorPrefix_length (b w : List Byte) : (xorPrefix b w).length = b.length := by
  fun_induction xorPrefix b w <;> simp_all

@[simp] theorem foldAllLoop_length (n : Nat) (seed : List Byte) (fuel i : Nat) (b : List Byte) :
    (foldAllLoop n seed fuel i b).length = b.length := by
  induction fuel generalizing i b with
  | zero => rfl
  | succ fuel ih => simp only [foldAllLoop]; split <;> simp [ih]

@[simp] theorem literalLoop_length (n : Nat) (seed : List Byte) (fuel i : Nat) (b : List Byte) :
    (literalLoop n seed fuel i b).1.length = b.length := by
  induction fuel generalizing i b with
  | zero => rfl
  | succ fuel ih => simp only [literalLoop]; split <;> simp [ih]

/-- Absorption fills the whole buffer (R103, R104). -/
@[simp] theorem absorb_length (v : AbsorbVariant) (n : Nat) (seed : List Byte) :
    (absorb v n seed).length = n := by
  cases v with
  | foldAll => simp [absorb, absorbFoldAll]
  | literal =>
    have h := literalLoop_length n seed seed.length 0 (List.replicate n 0)
    rw [List.length_replicate] at h
    simp only [absorb, absorbLiteral]
    split <;> simp

theorem legalSize_iff {nMax n : Nat} :
    legalSize nMax n = true ↔ n ≠ 0 ∧ n % 32 = 0 ∧ n ≤ nMax := by
  simp [legalSize, and_assoc]

theorem nMax_lt (p : Params) : p.nMax < 2 ^ 32 := by
  have := p.nMaxIndex.isLt; unfold Params.nMax; omega

theorem le_nMax (p : Params) : 128 ≤ p.nMax := by unfold Params.nMax; omega

theorem getElem?_blocksOf (k : Nat) (bs : List Byte) (i : Nat) (hi : i < k) :
    (blocksOf k bs)[i]? = some (packBytes 256 ((bs.drop (32 * i)).take 32)) := by
  induction k generalizing bs i with
  | zero => omega
  | succ k ih =>
    cases i with
    | zero => simp [blocksOf]
    | succ i =>
      rw [blocksOf, List.getElem?_cons_succ, ih _ _ (by omega), List.drop_drop,
        show 32 + 32 * i = 32 * (i + 1) by ring]

@[simp] theorem blocksOf_length (k : Nat) (bs : List Byte) : (blocksOf k bs).length = k := by
  induction k generalizing bs with
  | zero => rfl
  | succ k ih => simp [blocksOf, ih]

/-- The whole buffer written at once: its blocks are the string's. -/
theorem ring_writeBytes (m : Memory) {n : Nat} {bs : List Byte} (hl : bs.length = n) :
    Memory.Ring n (writeBytes m 0 bs) (blocksOf (blockCount n) bs) := by
  refine ⟨by simp, fun i hi => ?_⟩
  have hi' : i < blockCount n := by simpa using hi
  have hle := blockCount_le n hi'
  have hget : (blocksOf (blockCount n) bs)[i] = packBytes 256 ((bs.drop (32 * i)).take 32) := by
    have h := getElem?_blocksOf _ bs i hi'
    rwa [List.getElem?_eq_getElem hi, Option.some.injEq] at h
  rw [readBlock_eq_ok]
  refine ⟨hle, fun t ht => ?_⟩
  have hlen : ((bs.drop (32 * i)).take 32).length = 32 := by simp; omega
  rw [readByte_writeBytes, if_pos (by omega), hget, byteOf_packBytes (by omega) (by omega)]
  simp only [List.getElem_take, List.getElem_drop, Nat.sub_zero]
  rw [List.getElem?_eq_getElem (by omega)]

/-- Derive (R140): the six arrays from the blocks after each NextState. -/
theorem derive_spec (p : Params) {n : Nat} {m : Memory} {ring : List Block}
    (h : Memory.Ring n m ring) (hn : n % 32 = 0) :
    ∃ m', derive p n m = .ok
        ({ multX := ringWords p.wordOrder (roundsBlocks p 2 ring)
           multA := (ringWords p.wordOrder (roundsBlocks p 4 ring)).map (adjust 4 1)
           multB := (ringWords p.wordOrder (roundsBlocks p 6 ring)).map (adjust 2 1)
           xorX := ringWords p.wordOrder (roundsBlocks p 8 ring)
           xorA := (ringWords p.wordOrder (roundsBlocks p 10 ring)).map (adjust 2 0)
           xorB := (ringWords p.wordOrder (roundsBlocks p 12 ring)).map (adjust 2 1)
           idxMult := 0
           idxXor := 0 }, m') ∧
      Memory.Ring n m' (roundsBlocks p 12 ring) ∧
      (m.map Prod.fst = List.range n → m'.map Prod.fst = List.range n) ∧
      ∀ a, n ≤ a → readByte m' a = readByte m a := by
  obtain ⟨m1, e1, r1, a1, f1⟩ := nextArray_spec p h hn
  obtain ⟨m2, e2, r2, a2, f2⟩ := nextArray_spec p r1 hn
  obtain ⟨m3, e3, r3, a3, f3⟩ := nextArray_spec p r2 hn
  obtain ⟨m4, e4, r4, a4, f4⟩ := nextArray_spec p r3 hn
  obtain ⟨m5, e5, r5, a5, f5⟩ := nextArray_spec p r4 hn
  obtain ⟨m6, e6, r6, a6, f6⟩ := nextArray_spec p r5 hn
  simp only [← roundsBlocks_add, Nat.reduceAdd] at *
  refine ⟨m6, ?_, r6, fun h => a6 (a5 (a4 (a3 (a2 (a1 h))))), fun a ha => ?_⟩
  · simp only [derive, e1, e2, e3, e4, e5, e6, bind, Except.bind, pure, Except.pure]
  · rw [f6 a ha, f5 a ha, f4 a ha, f3 a ha, f2 a ha, f1 a ha]

/-- The body of CONSTRUCT after its checks (R100): for a legal size it succeeds, on any buffer. -/
theorem initialise_spec (p : Params) {n : Word} (seed : List Byte) (s : State)
    (hn : n.toNat % 32 = 0) :
    ∃ c m, initialise p n seed s =
        .ok { s with life := .ready, cfgN := n.setWidth 32, buf := m, cur := c, prev := c } ∧
      c = { multX := ringWords p.wordOrder (roundsBlocks p 2
              (blocksOf (blockCount n.toNat) (absorb p.absorbVariant n.toNat seed)))
            multA := (ringWords p.wordOrder (roundsBlocks p 4
              (blocksOf (blockCount n.toNat) (absorb p.absorbVariant n.toNat seed)))).map (adjust 4 1)
            multB := (ringWords p.wordOrder (roundsBlocks p 6
              (blocksOf (blockCount n.toNat) (absorb p.absorbVariant n.toNat seed)))).map (adjust 2 1)
            xorX := ringWords p.wordOrder (roundsBlocks p 8
              (blocksOf (blockCount n.toNat) (absorb p.absorbVariant n.toNat seed)))
            xorA := (ringWords p.wordOrder (roundsBlocks p 10
              (blocksOf (blockCount n.toNat) (absorb p.absorbVariant n.toNat seed)))).map (adjust 2 0)
            xorB := (ringWords p.wordOrder (roundsBlocks p 12
              (blocksOf (blockCount n.toNat) (absorb p.absorbVariant n.toNat seed)))).map (adjust 2 1)
            idxMult := 0
            idxXor := 0 } ∧
      Memory.Ring n.toNat m (roundsBlocks p 12
        (blocksOf (blockCount n.toNat) (absorb p.absorbVariant n.toNat seed))) ∧
      (s.buf = [] → m.map Prod.fst = List.range n.toNat) ∧
      ∀ a, n.toNat ≤ a → readByte m a = readByte s.buf a := by
  set bytes := absorb p.absorbVariant n.toNat seed with hb
  have hlen : bytes.length = n.toNat := by simp [hb]
  obtain ⟨m, he, hr, ha, hf⟩ := derive_spec p (ring_writeBytes s.buf hlen) hn
  have hw : memWrite n.toNat s.buf 0 bytes = .ok (writeBytes s.buf 0 bytes) :=
    memWrite_eq_ok.2 ⟨by omega, rfl⟩
  refine ⟨_, m, ?_, rfl, hr, fun hs => ha ?_, fun a han => ?_⟩
  · simp only [initialise, ← hb, hw, he, bind, Except.bind, pure, Except.pure]
  · rw [hs]
    refine addresses_eq_range_iff.2 ⟨writeBytes_wf List.Pairwise.nil _ _, fun a => ?_⟩
    rw [readByte_writeBytes]
    split
    · rw [List.getElem?_eq_getElem (by omega)]; simp; omega
    · simp [readByte]; omega
  · rw [hf a han, readByte_writeBytes, if_neg (by omega)]

end Sys2Proof.Machine
end

