-- ==== Sys2Proof/Laws/Decode.lean ====
section
/-! SUPPORT. The parts of the decoder and encoder: headers, seed flits and their lengths. -/

namespace Sys2Proof

/-- A header with RSVD = 0 is its OPCODE (R72). -/
theorem header_of_no_reserved {h : Word} (hr : h >>> 8 = 0) :
    h.toNat < 256 ∧ (h.setWidth 8).toNat = h.toNat := by
  have h0 : (0 : Word).toNat = 0 := rfl
  have := congrArg BitVec.toNat hr
  simp only [BitVec.toNat_ushiftRight, Nat.shiftRight_eq_div_pow] at this
  constructor
  · omega
  · simp only [BitVec.toNat_setWidth]; omega

theorem no_reserved_of_lt {h : Word} (hr : h.toNat < 256) : h >>> 8 = 0 := by
  have h0 : (0 : Word).toNat = 0 := rfl
  apply BitVec.eq_of_toNat_eq
  simp only [BitVec.toNat_ushiftRight, Nat.shiftRight_eq_div_pow]
  omega

/-- Decoding a frame whose header is an OPCODE alone (R78). -/
theorem decodeFrame_of_lt {h : Word} (hr : h.toNat < 256) (operands : List Word) :
    decodeFrame (h :: operands) = decodeOperands h.toNat operands := by
  have h8 := no_reserved_of_lt hr
  simp only [decodeFrame, h8, ne_eq, not_true_eq_false, if_false, (header_of_no_reserved h8).2]

/-- Decoding a frame with a reserved header bit (R72, R80). -/
theorem decodeFrame_of_ge {h : Word} (hr : ¬ h.toNat < 256) (operands : List Word) :
    decodeFrame (h :: operands) = .error .reservedBits := by
  have : h >>> 8 ≠ 0 := fun hc => hr (header_of_no_reserved hc).1
  simp only [decodeFrame]
  rw [if_pos this]

/-- A seed of at most eight bytes reads back from its flit. -/
theorem take_unpackBytes_packBytes {l : List Byte} (h : l.length ≤ 8) :
    (unpackBytes 8 (packBytes 64 l)).take l.length = l := by
  apply List.ext_getElem
  · simp [h]
  · intro t h1 h2
    simp [unpackBytes, byteOf_packBytes (w := 64) (bs := l) (by omega) h2]

theorem flatMap_unpackBytes_length (flits : List Word) :
    (flits.flatMap (unpackBytes 8)).length = 8 * flits.length := by
  induction flits with
  | nil => rfl
  | cons f flits ih =>
    simp only [List.flatMap_cons, List.length_append, ih, List.length_cons, unpackBytes_length]
    omega

/-- Byte `t` of flit `k` in a run of flits. -/
theorem getElem?_flatMap_unpackBytes (flits : List Word) (k t : Nat) (ht : t < 8) :
    (flits.flatMap (unpackBytes 8))[8 * k + t]? = flits[k]?.map fun f => byteOf f t := by
  induction flits generalizing k with
  | nil => simp
  | cons f flits ih =>
    rw [List.flatMap_cons]
    cases k with
    | zero => simp [List.getElem?_append, unpackBytes, ht]
    | succ k =>
      rw [List.getElem?_append_right (by rw [unpackBytes_length]; omega), unpackBytes_length,
        show 8 * (k + 1) + t - 8 = 8 * k + t by omega, ih, List.getElem?_cons_succ]

/-- The seed a decoder reads has the length the frame states (R75). -/
theorem seedOfFlits_length {flits : List Word} {l : Nat} (h : flits.length = seedFlits l) :
    (seedOfFlits flits l).length = l := by
  rw [seedOfFlits, List.length_take, flatMap_unpackBytes_length, h]
  unfold seedFlits; omega

/-- A seed reads back from the flits it is packed into (R75). -/
theorem seedOfFlits_flitsOfSeed (k : Nat) (seed : List Byte) (h : seed.length ≤ 8 * k) :
    seedOfFlits (flitsOfSeed k seed) seed.length = seed := by
  induction k generalizing seed with
  | zero =>
    have : seed = [] := List.length_eq_zero_iff.1 (by omega)
    simp [this, seedOfFlits]
  | succ k ih =>
    simp only [seedOfFlits, flitsOfSeed, List.flatMap_cons] at ih ⊢
    by_cases h8 : seed.length ≤ 8
    · have ht : seed.take 8 = seed := List.take_of_length_le h8
      rw [List.take_append_of_le_length (by simp; omega), ht, take_unpackBytes_packBytes h8]
    · have hl : (seed.take 8).length = 8 := by simp; omega
      have h1 : unpackBytes 8 (packBytes 64 (seed.take 8)) = seed.take 8 := by
        have := take_unpackBytes_packBytes (l := seed.take 8) (by omega)
        rwa [hl, List.take_of_length_le (by simp)] at this
      have h2 := ih (seed.drop 8) (by simp; omega)
      rw [List.length_drop] at h2
      rw [h1, List.take_append, List.take_take, hl, h2, show min seed.length 8 = 8 by omega,
        List.take_append_drop]

end Sys2Proof
end

