-- ==== Sys2Proof/Laws/Extract.lean ====
section
/-! SUPPORT. What the extraction steps can do. -/

namespace Sys2Proof.Machine

/-- The snapshot after XorAdvance (R162), given the three elements it reads. -/
def Snapshot.advanced (w : Nat) (c : Snapshot) (a x b : Word) : Snapshot :=
  { c with xorX := c.xorX.set c.idxXor ((a ^^^ x) + b), idxXor := (c.idxXor + 1) % w }

/-- Everything XorAdvance can answer. -/
theorem xorAdvance_eq_ok {w : Nat} {c c' : Snapshot} :
    xorAdvance w c = .ok c' ↔ ∃ a x b, c.xorA[c.idxXor]? = some a ∧ c.xorX[c.idxXor]? = some x ∧
      c.xorB[c.idxXor]? = some b ∧ c' = c.advanced w a x b := by
  simp only [xorAdvance, bind, Except.bind, pure, Except.pure]
  constructor
  · intro h
    split at h
    · cases h
    rename_i a ha
    split at h
    · cases h
    rename_i x hx
    split at h
    · cases h
    rename_i b hb
    split at h
    · cases h
    rename_i xs hxs
    rw [writeElem_eq_ok] at hxs
    rw [readElem_eq_ok] at ha hx hb
    refine ⟨a, x, b, ha, hx, hb, ?_⟩
    cases h
    simp [Snapshot.advanced, hxs.2]
  · rintro ⟨a, x, b, ha, hx, hb, rfl⟩
    have hlt := (List.getElem?_eq_some_iff.1 hx).1
    rw [readElem_eq_ok.2 ha, readElem_eq_ok.2 hx, readElem_eq_ok.2 hb]
    simp only [writeElem_of_lt hlt]
    rfl

/-- The snapshot after the lane part of EmitOne (R161), the lane's new state being `v`. -/
def Snapshot.laneWritten (c : Snapshot) (v : Word) (idx : Nat) : Snapshot :=
  { c with multX := c.multX.set c.idxMult v, idxMult := idx }

/-- Everything EmitOne can answer (R161): the lane's value from its four operands, then either the
cursor moves or an epoch ends with one XorAdvance. -/
theorem emitOne_eq_ok {w : Nat} {c c' : Snapshot} {v : Word} :
    emitOne w c = .ok (v, c') ↔ ∃ mask a x b, c.xorX[c.idxXor]? = some mask ∧
      c.multA[c.idxMult]? = some a ∧ c.multX[c.idxMult]? = some x ∧ c.multB[c.idxMult]? = some b ∧
      v = (a * x + b) ^^^ mask ∧
      ((c.idxMult + 1 ≠ w ∧ c' = c.laneWritten v (c.idxMult + 1)) ∨
        (c.idxMult + 1 = w ∧ xorAdvance w (c.laneWritten v 0) = .ok c')) := by
  simp only [emitOne, bind, Except.bind, pure, Except.pure]
  constructor
  · intro h
    split at h
    · cases h
    rename_i mask hm
    split at h
    · cases h
    rename_i a ha
    split at h
    · cases h
    rename_i x hx
    split at h
    · cases h
    rename_i b hb
    split at h
    · cases h
    rename_i xs hxs
    rw [writeElem_eq_ok] at hxs
    rw [readElem_eq_ok] at hm ha hx hb
    refine ⟨mask, a, x, b, hm, ha, hx, hb, ?_⟩
    split at h
    · rename_i hw
      split at h
      · cases h
      rename_i c1 hc1
      simp only [Except.ok.injEq, Prod.mk.injEq] at h
      obtain ⟨rfl, rfl⟩ := h
      refine ⟨rfl, .inr ⟨hw, ?_⟩⟩
      rw [← hc1, hxs.2]; rfl
    · rename_i hw
      simp only [Except.ok.injEq, Prod.mk.injEq] at h
      obtain ⟨rfl, rfl⟩ := h
      exact ⟨rfl, .inl ⟨hw, by rw [hxs.2]; rfl⟩⟩
  · rintro ⟨mask, a, x, b, hm, ha, hx, hb, rfl, h⟩
    have hlt := (List.getElem?_eq_some_iff.1 hx).1
    rw [readElem_eq_ok.2 hm, readElem_eq_ok.2 ha, readElem_eq_ok.2 hx, readElem_eq_ok.2 hb]
    simp only [writeElem_of_lt hlt]
    rcases h with ⟨hw, rfl⟩ | ⟨hw, hc⟩
    · rw [if_neg hw]; rfl
    · rw [if_pos hw]
      simp only [Snapshot.laneWritten] at hc
      rw [hc]

/-- What every EmitOne keeps: the shape, the four read-only arrays and cursors in range. -/
theorem emitOne_keeps {w : Nat} (hw : 0 < w) {c c' : Snapshot} {v : Word}
    (h : emitOne w c = .ok (v, c')) :
    (c.Shaped w → c'.Shaped w) ∧ c'.multA = c.multA ∧ c'.multB = c.multB ∧ c'.xorA = c.xorA ∧
      c'.xorB = c.xorB ∧ (c.CursorsBelow w → c'.CursorsBelow w) := by
  obtain ⟨mask, a, x, b, -, -, -, -, -, ⟨hne, rfl⟩ | ⟨-, hx⟩⟩ := emitOne_eq_ok.1 h
  · refine ⟨by simp [Snapshot.Shaped, Snapshot.laneWritten], rfl, rfl, rfl, rfl, fun hc => ⟨?_, hc.2⟩⟩
    have := hc.1
    simp only [Snapshot.laneWritten]; omega
  · obtain ⟨a, x, b, -, -, -, rfl⟩ := xorAdvance_eq_ok.1 hx
    exact ⟨by simp [Snapshot.Shaped, Snapshot.laneWritten, Snapshot.advanced], rfl, rfl, rfl, rfl,
      fun _ => ⟨hw, Nat.mod_lt _ hw⟩⟩

/-- EmitOne succeeds on a shaped snapshot with cursors in range. -/
theorem emitOne_ok {w : Nat} {c : Snapshot} (hs : c.Shaped w) (hc : c.CursorsBelow w) :
    ∃ v c', emitOne w c = .ok (v, c') := by
  obtain ⟨h1, h2, h3, h4, h5, h6⟩ := hs
  have hp := hc.1
  have hq := hc.2
  have hlane := fun v c' => (emitOne_eq_ok (w := w) (c := c) (c' := c') (v := v)).2
  by_cases hw : c.idxMult + 1 = w
  · refine ⟨_, _, hlane _ _ ⟨c.xorX[c.idxXor], c.multA[c.idxMult], c.multX[c.idxMult],
      c.multB[c.idxMult], List.getElem?_eq_getElem (by omega), List.getElem?_eq_getElem (by omega),
      List.getElem?_eq_getElem (by omega), List.getElem?_eq_getElem (by omega), rfl,
      .inr ⟨hw, xorAdvance_eq_ok.2 ⟨c.xorA[c.idxXor], c.xorX[c.idxXor], c.xorB[c.idxXor],
        List.getElem?_eq_getElem (by simp only [Snapshot.laneWritten]; omega),
        List.getElem?_eq_getElem (by simp only [Snapshot.laneWritten]; omega),
        List.getElem?_eq_getElem (by simp only [Snapshot.laneWritten]; omega), rfl⟩⟩⟩⟩
  · exact ⟨_, _, hlane _ _ ⟨c.xorX[c.idxXor], c.multA[c.idxMult], c.multX[c.idxMult],
      c.multB[c.idxMult], List.getElem?_eq_getElem (by omega), List.getElem?_eq_getElem (by omega),
      List.getElem?_eq_getElem (by omega), List.getElem?_eq_getElem (by omega), rfl,
      .inl ⟨hw, rfl⟩⟩⟩

/-- Everything one more EmitOne can answer. -/
theorem emitWords_succ_eq_ok {w k : Nat} {c c' : Snapshot} {vs : List Word} :
    emitWords w (k + 1) c = .ok (vs, c') ↔ ∃ v c1 ws, emitOne w c = .ok (v, c1) ∧
      emitWords w k c1 = .ok (ws, c') ∧ vs = v :: ws := by
  simp only [emitWords, bind, Except.bind, pure, Except.pure]
  constructor
  · intro h
    split at h
    · cases h
    rename_i r hr
    split at h
    · cases h
    rename_i r' hr'
    simp only [Except.ok.injEq, Prod.mk.injEq] at h
    obtain ⟨rfl, rfl⟩ := h
    exact ⟨r.1, r.2, r'.1, hr, hr', rfl⟩
  · rintro ⟨v, c1, ws, h1, h2, rfl⟩
    rw [h1]; simp only [h2]

/-- What a walk of EmitOnes keeps. -/
theorem emitWords_keeps {w : Nat} (hw : 0 < w) {k : Nat} {c c' : Snapshot} {vs : List Word}
    (h : emitWords w k c = .ok (vs, c')) :
    vs.length = k ∧ (c.Shaped w → c'.Shaped w) ∧ c'.multA = c.multA ∧ c'.multB = c.multB ∧
      c'.xorA = c.xorA ∧ c'.xorB = c.xorB ∧ (c.CursorsBelow w → c'.CursorsBelow w) := by
  induction k generalizing c vs with
  | zero =>
    simp only [emitWords, Except.ok.injEq, Prod.mk.injEq] at h
    obtain ⟨rfl, rfl⟩ := h
    exact ⟨rfl, id, rfl, rfl, rfl, rfl, id⟩
  | succ k ih =>
    obtain ⟨v, c1, ws, h1, h2, rfl⟩ := emitWords_succ_eq_ok.1 h
    obtain ⟨hs, ha, hb, hxa, hxb, hc⟩ := emitOne_keeps hw h1
    obtain ⟨hl, hs', ha', hb', hxa', hxb', hc'⟩ := ih h2
    exact ⟨by simp [hl], hs' ∘ hs, ha'.trans ha, hb'.trans hb, hxa'.trans hxa, hxb'.trans hxb,
      hc' ∘ hc⟩

/-- A walk succeeds on a shaped snapshot with cursors in range. -/
theorem emitWords_ok {w : Nat} {c : Snapshot} (hs : c.Shaped w) (hc : c.CursorsBelow w) (k : Nat) :
    ∃ vs c', emitWords w k c = .ok (vs, c') := by
  have hw : 0 < w := by have := hc.1; omega
  induction k generalizing c with
  | zero => exact ⟨[], c, rfl⟩
  | succ k ih =>
    obtain ⟨v, c1, h1⟩ := emitOne_ok hs hc
    obtain ⟨hs', -, -, -, -, hc'⟩ := emitOne_keeps hw h1
    obtain ⟨vs, c', h2⟩ := ih (hs' hs) (hc' hc)
    exact ⟨v :: vs, c', emitWords_succ_eq_ok.2 ⟨v, c1, vs, h1, h2, rfl⟩⟩

/-- Everything an extraction can do (R160, R180): a lifecycle error, an argument error, a fault in a
state no run reaches, or the walk. -/
theorem extractWith_eq_next {render : Word → Word} {amount : Word} {s t : State} :
    extractWith render amount s = .next t ↔
      (s.life ≠ .ready ∧ t = respond .invalidState [] s) ∨
      (s.life = .ready ∧ s64 amount < 0 ∧ t = respond .invalidArgument [] s) ∨
      (s.life = .ready ∧ 0 ≤ s64 amount ∧ ∃ vs c,
        emitWords (wordCount s.cfgN.toNat) (s64 amount).toNat s.cur = .ok (vs, c) ∧
        t = respond .ok (vs.map render) { s with cur := c }) := by
  unfold extractWith
  by_cases hl : s.life = .ready
  · rw [requireLife_of_eq hl]
    by_cases hneg : s64 amount < 0
    · rw [if_pos hneg]
      have hn : ¬ 0 ≤ s64 amount := by omega
      simp [raiseError, hl, hneg, hn, eq_comm]
    · rw [if_neg hneg, whenOk_eq_next]
      simp only [complete, Host.Outcome.next.injEq, hl, hneg, ne_eq, not_true_eq_false, false_and,
        true_and, false_or, Prod.exists, show 0 ≤ s64 amount by omega]
      constructor
      · rintro ⟨vs, c, h, rfl⟩; exact ⟨vs, c, h, rfl⟩
      · rintro ⟨vs, c, h, rfl⟩; exact ⟨vs, c, h, rfl⟩
  · rw [requireLife_of_ne hl]
    simp [hl, eq_comm]

end Sys2Proof.Machine
end

