-- ==== Sys2Proof/Laws/State.lean ====
section
/-! SUPPORT. What each update of the state leaves in each field; true by `rfl`. -/

namespace Sys2Proof.Machine

section respond
variable (c : Code) (payload : List Word) (s : State)
@[simp] theorem respond_life : (respond c payload s).life = s.life := rfl
@[simp] theorem respond_cfgN : (respond c payload s).cfgN = s.cfgN := rfl
@[simp] theorem respond_buf : (respond c payload s).buf = s.buf := rfl
@[simp] theorem respond_cur : (respond c payload s).cur = s.cur := rfl
@[simp] theorem respond_prev : (respond c payload s).prev = s.prev := rfl
@[simp] theorem respond_cmdIn : (respond c payload s).cmdIn = s.cmdIn := rfl
@[simp] theorem respond_respOut :
    (respond c payload s).respOut = s.respOut ++ frameOf (statusFlit c s.life :: payload) := rfl
end respond

section resetBlock
variable (rest : List PortEvent) (s : State)
@[simp] theorem resetBlock_life : (resetBlock rest s).life = .uninit := rfl
@[simp] theorem resetBlock_cfgN : (resetBlock rest s).cfgN = 0 := rfl
@[simp] theorem resetBlock_buf : (resetBlock rest s).buf = [] := rfl
@[simp] theorem resetBlock_cur : (resetBlock rest s).cur = .empty := rfl
@[simp] theorem resetBlock_prev : (resetBlock rest s).prev = .empty := rfl
@[simp] theorem resetBlock_cmdIn : (resetBlock rest s).cmdIn = rest := rfl
@[simp] theorem resetBlock_respOut : (resetBlock rest s).respOut = s.respOut := rfl
end resetBlock

section placeFrame
variable (s : State) (nbits w : Nat)
@[simp] theorem placeFrame_life : (placeFrame s nbits w).life = s.life := rfl
@[simp] theorem placeFrame_cfgN : (placeFrame s nbits w).cfgN = s.cfgN := rfl
@[simp] theorem placeFrame_buf : (placeFrame s nbits w).buf = s.buf := rfl
@[simp] theorem placeFrame_cur : (placeFrame s nbits w).cur = s.cur := rfl
@[simp] theorem placeFrame_prev : (placeFrame s nbits w).prev = s.prev := rfl
@[simp] theorem placeFrame_cmdIn :
    (placeFrame s nbits w).cmdIn = frameEvents (tableFrame nbits w) := rfl
@[simp] theorem placeFrame_respOut : (placeFrame s nbits w).respOut = s.respOut := rfl
end placeFrame

@[simp] theorem reset_life : State.reset.life = .uninit := rfl
@[simp] theorem reset_cfgN : State.reset.cfgN = 0 := rfl
@[simp] theorem reset_buf : State.reset.buf = [] := rfl
@[simp] theorem reset_cur : State.reset.cur = .empty := rfl
@[simp] theorem reset_prev : State.reset.prev = .empty := rfl
@[simp] theorem reset_cmdIn : State.reset.cmdIn = [] := rfl
@[simp] theorem reset_respOut : State.reset.respOut = [] := rfl

end Sys2Proof.Machine
end

