-- ==== Sys2Proof/Laws/Port.lean ====
section
/-! SUPPORT. What the command port hands over and what one step can do, said once. -/

namespace Sys2Proof.Machine

@[simp] theorem frameEvents_nil : frameEvents [] = [] := rfl

@[simp] theorem frameEvents_singleton (v : Word) : frameEvents [v] = [.flit v true] := rfl

@[simp] theorem frameEvents_cons_cons (v w : Word) (vs : List Word) :
    frameEvents (v :: w :: vs) = .flit v false :: frameEvents (w :: vs) := rfl

/-- A whole frame on the port is received as its flits (R70). -/
theorem receive_frameEvents {flits : List Word} (h : flits ≠ []) (rest : List PortEvent) :
    receive (frameEvents flits ++ rest) = .frame flits rest := by
  induction flits with
  | nil => exact absurd rfl h
  | cons v vs ih =>
    cases vs with
    | nil => rfl
    | cons w ws =>
      rw [frameEvents_cons_cons, List.cons_append, receive, ih (by simp)]

/-- Flits without a LAST are no frame yet (R279). -/
theorem receive_no_last (ds : List Word) :
    receive (ds.map fun d => .flit d false) = .waiting := by
  induction ds with
  | nil => rfl
  | cons d ds ih => rw [List.map_cons, receive, ih]

/-- A received frame has at least one flit (R70). -/
theorem receive_frame_ne_nil {es : List PortEvent} {flits : List Word} {rest : List PortEvent}
    (h : receive es = .frame flits rest) : flits ≠ [] := by
  cases es with
  | nil => cases h
  | cons e es =>
    cases e with
    | reset => cases h
    | abort k => cases h
    | flit d last =>
      cases last with
      | true => simp only [receive, Reception.frame.injEq] at h; rw [← h.1]; simp
      | false =>
        simp only [receive] at h
        cases hr : receive es <;> simp only [hr] at h
        · cases h
        · cases h
        · simp only [Reception.frame.injEq] at h; rw [← h.1]; simp

/-- Everything the end of a command can do (R272): nothing more, or the reset that hit it. -/
theorem settleFrame_eq_next {before : List Flit} {rest : List PortEvent} {r : Result} {t : State} :
    settleFrame before rest r = .next t ↔ ∃ u, r = .next u ∧
      ((∃ sent later, rest = .abort sent :: later ∧
          t = resetBlock later { u with respOut := u.respOut.take (before.length + sent) }) ∨
        ((∀ sent later, rest ≠ .abort sent :: later) ∧ t = u)) := by
  unfold settleFrame
  split
  · rename_i sent later u
    constructor
    · intro h
      cases h
      exact ⟨u, rfl, .inl ⟨sent, later, rfl, rfl⟩⟩
    · rintro ⟨u', hu, ⟨sent', later', he, rfl⟩ | ⟨h, -⟩⟩
      · cases hu; cases he; rfl
      · exact absurd rfl (h sent later)
  · rename_i h
    constructor
    · intro hr
      exact ⟨t, hr, .inr ⟨fun sent later he => h sent later t he hr, rfl⟩⟩
    · rintro ⟨u, rfl, ⟨sent, later, rfl, -⟩ | ⟨-, rfl⟩⟩
      · exact absurd rfl (h sent later u rfl)
      · rfl

/-- Everything one step can do: wait, take a reset, or run one frame. -/
theorem step_eq_next {s t : State} :
    step s = .next t ↔
      (receive s.cmdIn = .waiting ∧ t = s) ∨
      (∃ rest, receive s.cmdIn = .reset rest ∧ t = resetBlock rest s) ∨
      (∃ flits rest u, receive s.cmdIn = .frame flits rest ∧
        runFrame exec flits { s with cmdIn := rest } = .next u ∧
        ((∃ sent later, rest = .abort sent :: later ∧
            t = resetBlock later { u with respOut := u.respOut.take (s.respOut.length + sent) }) ∨
          ((∀ sent later, rest ≠ .abort sent :: later) ∧ t = u))) := by
  unfold step portStep
  cases hr : receive s.cmdIn with
  | waiting => simp [eq_comm]
  | reset rest => simp [eq_comm]
  | frame flits rest => simp [settleFrame_eq_next]

/-- Everything a complete frame can do (R78, R245). -/
theorem runFrame_eq_next {run : Instr → State → Result} {flits : List Word} {s t : State} :
    runFrame run flits s = .next t ↔
      (∃ i, decodeFrame flits = .ok i ∧ run i s = .next t) ∨
      (∃ e, decodeFrame flits = .error e ∧ t = respond .invalidArgument [] s) := by
  unfold runFrame
  cases decodeFrame flits <;> simp [raiseError, eq_comm]

end Sys2Proof.Machine
end

