-- ==== Sys2Proof/Laws/Exec.lean ====
section
/-! SUPPORT. What each command can answer, said once. -/

namespace Sys2Proof.Machine

/-- Everything CONSTRUCT can do (R100). -/
theorem constructWith_eq_next {p : Params} {n : Word} {seed : List Byte} {s t : State} :
    constructWith p n seed s = .next t ↔
      (s.life ≠ .uninit ∧ t = respond .invalidState [] s) ∨
      (s.life = .uninit ∧ seed = [] ∧ t = respond .invalidSeed [] s) ∨
      (s.life = .uninit ∧ seed ≠ [] ∧ legalSize p.nMax n.toNat = false ∧
        t = respond .invalidConfig [] s) ∨
      (s.life = .uninit ∧ seed ≠ [] ∧ legalSize p.nMax n.toNat = true ∧
        ∃ u, initialise p n seed s = .ok u ∧ t = respond .ok [] u) := by
  unfold constructWith
  by_cases hl : s.life = .uninit
  · rw [requireLife_of_eq hl]
    by_cases hs : seed = []
    · simp [hl, hs, raiseError, @eq_comm State t]
    · rw [if_neg (by simpa using hs)]
      by_cases hz : legalSize p.nMax n.toNat = true
      · simp [hl, hs, hz, whenOk_eq_next, complete, @eq_comm State t]
      · simp [hl, hs, hz, raiseError, @eq_comm State t]
  · rw [requireLife_of_ne hl]
    simp [hl, @eq_comm State t]

/-- Everything CHECKPOINT can do (R190). -/
theorem execCheckpoint_eq_next {s t : State} :
    execCheckpoint s = .next t ↔
      (s.life ≠ .ready ∧ t = respond .invalidState [] s) ∨
      (s.life = .ready ∧ t = respond .ok [] { s with prev := s.cur }) := by
  unfold execCheckpoint
  by_cases hl : s.life = .ready
  · simp [complete, hl, @eq_comm State t]
  · simp [hl, @eq_comm State t]

/-- Everything RESTORE can do (R192). -/
theorem execRestore_eq_next {s t : State} :
    execRestore s = .next t ↔
      (s.life ≠ .ready ∧ t = respond .invalidState [] s) ∨
      (s.life = .ready ∧ t = respond .ok [] { s with cur := s.prev }) := by
  unfold execRestore
  by_cases hl : s.life = .ready
  · simp [complete, hl, @eq_comm State t]
  · simp [hl, @eq_comm State t]

/-- Everything READ_STATE can do (R200). -/
theorem execReadState_eq_next {s t : State} :
    execReadState s = .next t ↔
      (s.life ≠ .ready ∧ t = respond .invalidState [] s) ∨
      (s.life = .ready ∧ ∃ payload, readStatePayload s = .ok payload ∧
        t = respond .ok payload s) := by
  unfold execReadState
  by_cases hl : s.life = .ready
  · rw [requireLife_of_eq hl, whenOk_eq_next]
    simp [complete, hl, @eq_comm State t]
  · simp [hl, @eq_comm State t]

/-- Everything GET_STATUS can do (R206). -/
theorem execGetStatus_eq_next {s t : State} :
    execGetStatus s = .next t ↔
      t = respond .ok [((s.cfgN.setWidth 64) <<< 32) ||| lifeBit s.life,
        (BitVec.ofNat 32 Config.params.nMax).setWidth 64] s := by
  simp [execGetStatus, getStatusWith, complete, statusRegister, readStatusReg, @eq_comm State t]

/-- READ_STATE's payload in a state with whole arrays and a buffer that holds its bytes (R201). -/
theorem readStatePayload_ok {s : State} (hc : s.cur.Shaped (wordCount s.cfgN.toNat))
    {ring : List Block} (hr : Memory.Ring s.cfgN.toNat s.buf ring) (hn : s.cfgN.toNat % 32 = 0) :
    readStatePayload s = .ok (s.cfgN.setWidth 64 :: ringWords .le ring ++ s.cur.multX ++ s.cur.multA
      ++ s.cur.multB ++ s.cur.xorX ++ s.cur.xorA ++ s.cur.xorB
      ++ [BitVec.ofNat 64 s.cur.idxMult, BitVec.ofNat 64 s.cur.idxXor]) := by
  obtain ⟨h1, h2, h3, h4, h5, h6⟩ := hc
  have hb : bufferFlits s.cfgN.toNat s.buf = .ok (ringWords .le ring) := hr.wordView .le hn
  simp only [readStatePayload, hb, readElems_of_length h1, readElems_of_length h2,
    readElems_of_length h3, readElems_of_length h4, readElems_of_length h5, readElems_of_length h6,
    bind, Except.bind, pure, Except.pure]

end Sys2Proof.Machine
end

