-- ==== Sys2Proof/Laws/Session.lean ====
section
/-! SUPPORT. What the host's operations can answer, said once. -/

namespace Sys2Proof.Machine

/-- Everything `andThen` can answer with a next value. -/
theorem andThen_eq_next {α β : Type} {r : Host.Outcome α Fault Refusal}
    {f : α → Host.Outcome β Fault Refusal} {b : β} :
    andThen r f = .next b ↔ ∃ a, r = .next a ∧ f a = .next b := by
  cases r <;> simp [andThen]

@[simp] theorem andThen_next {α β : Type} (a : α) (f : α → Host.Outcome β Fault Refusal) :
    andThen (.next a) f = f a := rfl

/-- The flits a command added to the response port. -/
theorem newFlits_of_append {s t : State} {fs : List Flit} (h : t.respOut = s.respOut ++ fs) :
    newFlits s t = fs := by simp [newFlits, h]

/-- What the host reads from a response frame (R84, R85). -/
theorem successPayload_frameOf (status : Word) (payload : List Word) :
    successPayload (frameOf (status :: payload)) =
      if status.setWidth 8 = (0 : Byte) then some payload else none := by
  cases payload <;> simp [frameOf, successPayload]

/-- Everything one call of the host can leave (R212). -/
theorem hostCall_eq_next {i : Instr} {s u : State} {parts : List DumpPart} :
    hostCall i s = .next (parts, u) ↔ ∃ t, exec i s = .next t ∧
      ((successPayload (newFlits s t) = none ∧ parts = [] ∧ u = t) ∨
        ∃ payload, successPayload (newFlits s t) = some payload ∧
          ((writesBlock i = false ∧ parts = [] ∧ u = t) ∨
            (writesBlock i = true ∧ exec .readState t = .next u ∧
              parts = match successPayload (newFlits t u) with
                | none => []
                | some state => dumpParts i payload state))) := by
  rw [hostCall, andThen_eq_next]
  refine exists_congr fun t => and_congr_right fun _ => ?_
  cases successPayload (newFlits s t) with
  | none =>
    constructor
    · rintro ⟨⟩; simp
    · rintro (⟨-, rfl, rfl⟩ | ⟨_, h, -⟩)
      · rfl
      · cases h
  | some payload =>
    cases writesBlock i with
    | false =>
      constructor
      · rintro ⟨⟩; simp
      · rintro (⟨h, -⟩ | ⟨_, -, ⟨-, rfl, rfl⟩ | ⟨h, -⟩⟩)
        · cases h
        · rfl
        · cases h
    | true =>
      simp only [if_true, andThen_eq_next, reduceCtorEq, false_and, false_or, Option.some.injEq,
        exists_eq_left', true_and, Bool.true_eq_false]
      constructor
      · rintro ⟨v, hv, h⟩
        split at h <;> simp_all
      · rintro ⟨hu, rfl⟩
        exact ⟨u, hu, by split <;> simp_all⟩

/-- What the parser of a dump reads (log 24). -/
theorem parseDump_eq_some {text : List Char} {parts : List DumpPart} :
    parseDump text = some parts ↔
      parseLines (splitLines [] text) = some parts ∧ dumpText parts = text := by
  unfold parseDump
  cases parseLines (splitLines [] text) with
  | none => simp
  | some found =>
    simp only [Option.bind_eq_bind, Option.bind_some, Option.pure_def, Option.ite_none_right_eq_some,
      Option.some.injEq]
    exact ⟨fun ⟨h, e⟩ => ⟨e, e ▸ h⟩, fun ⟨e, h⟩ => ⟨e ▸ h, e⟩⟩

end Sys2Proof.Machine
end

