-- ==== Sys2Proof/Machine/Sha256.lean ====
section
/-! DEFINITION. SHA-256 of a 32-byte message, the default `HASH256` (spec/00_scope.md R10;
93_implementation_defined.md G1), from FIPS 180-4. PRESUMED (log 6): the spec names the function and
does not restate it. The constants are computed from the roots that define them. The block does not use it: `Config.hash256` is open. It serves to run the vectors
of 95_test_vectors.md that depend on the hash. -/

namespace Sys2Proof.Machine.Sha256

/-- A 32-bit word of FIPS 180-4. -/
abbrev W32 := BitVec 32

/-- Sets the bits `b - 1, …, 0` of a `k`-th root of `n`, from `r` on, each where the root allows it. -/
def rootFrom (k n : Nat) : Nat → Nat → Nat
  | 0, r => r
  | b + 1, r => rootFrom k n b (if (r + 2 ^ b) ^ k ≤ n then r + 2 ^ b else r)

/-- The first 32 bits of the fraction of the `k`-th root of `p`: the low 32 bits of the whole part of the
root of `p * 2^(32 k)`. The roots FIPS 180-4 takes are below 8, so 35 bits hold them. -/
def rootFraction (k p : Nat) : W32 := BitVec.ofNat 32 (rootFrom k (p * 2 ^ (32 * k)) 35 0)

/-- The primes up to 311, the first 64: the numbers with no smaller divisor among 2 to 17. -/
def primes : List Nat :=
  (List.range 312).filter fun n =>
    2 ≤ n && (List.range 16).all fun d => n ≤ d + 2 || n % (d + 2) != 0

/-- The round constants: cube roots of the first 64 primes. -/
def roundConstants : List W32 := primes.map (rootFraction 3)

/-- The eight working variables a to h. -/
structure Work where
  a : W32
  b : W32
  c : W32
  d : W32
  e : W32
  f : W32
  g : W32
  h : W32
  deriving DecidableEq, Repr

/-- The initial hash value: square roots of the first eight primes. -/
def initial : Work :=
  let h (i : Nat) := rootFraction 2 (primes.getD i 0)
  ⟨h 0, h 1, h 2, h 3, h 4, h 5, h 6, h 7⟩

/-- The XOR of the right rotations of a word by the given amounts. -/
def xorRotations (amounts : List Nat) (x : W32) : W32 :=
  amounts.foldl (fun acc k => acc ^^^ x.rotateRight k) 0

def bigSigma0 : W32 → W32 := xorRotations [2, 13, 22]
def bigSigma1 : W32 → W32 := xorRotations [6, 11, 25]
def smallSigma0 (x : W32) : W32 := xorRotations [7, 18] x ^^^ x >>> 3
def smallSigma1 (x : W32) : W32 := xorRotations [17, 19] x ^^^ x >>> 10
def choose (x y z : W32) : W32 := (x &&& y) ^^^ (~~~x &&& z)
def majority (x y z : W32) : W32 := (x &&& y) ^^^ (x &&& z) ^^^ (y &&& z)

/-- One round with constant `k` and schedule word `w`. -/
def round (s : Work) (k w : W32) : Work :=
  let t1 := s.h + bigSigma1 s.e + choose s.e s.f s.g + k + w
  let t2 := bigSigma0 s.a + majority s.a s.b s.c
  ⟨t1 + t2, s.a, s.b, s.c, s.d + t1, s.e, s.f, s.g⟩

/-- The schedule's next word from the sixteen before it, oldest first. -/
def nextSchedule (ws : List W32) : W32 :=
  smallSigma1 (ws.getD 14 0) + ws.getD 9 0 + smallSigma0 (ws.getD 1 0) + ws.getD 0 0

/-- The rounds, over a window of sixteen schedule words, oldest first. -/
def rounds : List W32 → List W32 → Work → Work
  | [], _, s => s
  | k :: ks, ws, s => rounds ks (ws.tail ++ [nextSchedule ws]) (round s k (ws.headD 0))

/-- Four bytes, most significant first. -/
def wordOfBytes (bs : List Byte) : W32 := packBytes 32 bs.reverse

/-- The padded message: eight words of the block, then bit 1, zeros and the length 256. -/
def schedule (v : Block) : List W32 :=
  ((List.range 8).map fun j => wordOfBytes (((unpackBytes 32 v).drop (4 * j)).take 4))
    ++ [0x80000000, 0, 0, 0, 0, 0, 0, 256]

/-- A state word as four bytes, most significant first. -/
def bytesOfWord (w : W32) : List Byte := (unpackBytes 4 w).reverse

/-- The eight working variables in order. -/
def workWords (s : Work) : List W32 := [s.a, s.b, s.c, s.d, s.e, s.f, s.g, s.h]

/-- The digest of the 32-byte string a block packs, as such a block. -/
def hash (v : Block) : Block :=
  let s := rounds roundConstants (schedule v) initial
  packBytes 256 ((List.zipWith (· + ·) (workWords initial) (workWords s)).flatMap bytesOfWord)

end Sys2Proof.Machine.Sha256

namespace Sys2Proof.Machine

/-- The default parameters of R10 to R13 on a block of the given capacity. -/
def defaultParams (nMaxIndex : Fin 134217724) : Params :=
  ⟨Sha256.hash, .le, .foldAll, .original, nMaxIndex⟩

end Sys2Proof.Machine
end

