-- ==== Sys2Proof/Tests/Slice0.lean ====
section
/-! SUPPORT. Tests: expected values are the spec's own (95_test_vectors.md, named V-… or S…, or a worked
example of the rule cited), or counted by hand from the rule cited. The witnesses at the end meet the
hypotheses of the statements of Obligations.lean. -/

namespace Sys2Proof.Tests

open Sys2Proof.Machine

/-! ## Well-formed commands -/

/-- Ill-formed: a seed of 2^64 bytes has no 64-bit length (R75). -/
theorem test_wellFormed_refuses_seed_of_2_pow_64 :
    ¬ (Instr.construct 32 (List.replicate (2 ^ 64) 0)).WellFormed := by
  simp only [Instr.WellFormed, List.length_replicate]; omega

theorem test_wellFormed_accepts_longest_seed :
    (Instr.construct 32 (List.replicate (2 ^ 64 - 1) 0)).WellFormed := by
  simp only [Instr.WellFormed, List.length_replicate]; omega

theorem test_wellFormed_accepts_the_rest :
    (Instr.extractU64 (-1)).WellFormed ∧ (Instr.extractF64 0).WellFormed ∧
      Instr.checkpoint.WellFormed ∧ Instr.restore.WellFormed ∧ Instr.readState.WellFormed ∧
      Instr.getStatus.WellFormed := by decide

/-! ## Decoding and encoding (R72 to R80), flits written out from the rules -/

/-- V-X2: nine seed bytes take two flits, byte 0 least significant. -/
theorem test_decode_construct :
    decodeFrame [0x01, 0x20, 0x09, 0x71605F4E3D2C1B0A, 0x82] =
      .ok (.construct 32 [0x0A, 0x1B, 0x2C, 0x3D, 0x4E, 0x5F, 0x60, 0x71, 0x82]) := by decide

/-- R75: the padding of V-X1's seed flit is ignored, and N keeps all 64 bits. -/
theorem test_decode_construct_padding :
    decodeFrame [0x01, 0x0000000100000020, 0x01, 0xFFFFFFFFFFFFFF01] =
      .ok (.construct 0x100000020 [0x01]) := by decide

theorem test_decode_extractU64 :
    decodeFrame [0x0000000000000002, 0x0000000000000011] = .ok (.extractU64 17) := by decide
theorem test_decode_extractF64 :
    decodeFrame [0x0000000000000003, 0x0000000000000003] = .ok (.extractF64 3) := by decide
theorem test_decode_checkpoint : decodeFrame [0x0000000000000004] = .ok .checkpoint := by decide
theorem test_decode_restore : decodeFrame [0x0000000000000005] = .ok .restore := by decide
theorem test_decode_readState : decodeFrame [0x0000000000000006] = .ok .readState := by decide
theorem test_decode_getStatus : decodeFrame [0x0000000000000007] = .ok .getStatus := by decide

/-- V-X2 and P2's EXTRACT_F64 3, written. -/
theorem test_encode :
    encode (.construct 32 [0x0A, 0x1B, 0x2C, 0x3D, 0x4E, 0x5F, 0x60, 0x71, 0x82]) =
        [0x01, 0x20, 0x09, 0x71605F4E3D2C1B0A, 0x82] ∧
      encode (.extractF64 3) = [0x03, 0x03] := by decide

/-- V-X8, V-X13 to V-X17, and the first and last reserved opcodes above 0x07 (R73). -/
theorem test_decode_rejects :
    decodeFrame [0x01, 0x20, 0x09, 0x00] = .error .wrongLength ∧
      decodeFrame [0x106] = .error .reservedBits ∧
      decodeFrame [0x08] = .error .reservedOpcode ∧
      decodeFrame [0xFF] = .error .reservedOpcode ∧
      decodeFrame [0x00] = .error .reservedOpcode ∧
      decodeFrame [0x06, 0x00] = .error .wrongLength ∧
      decodeFrame [0x02, 0x01, 0x00] = .error .wrongLength ∧
      decodeFrame [0x01, 0x20] = .error .wrongLength := by decide

/-- Each row's word of the opcode table, operand flits 0; and a word with operands. -/
theorem test_decodeTableWord :
    decodeTableWord 64 1 = some (.construct 0 []) ∧ decodeTableWord 64 2 = some (.extractU64 0) ∧
      decodeTableWord 64 3 = some (.extractF64 0) ∧ decodeTableWord 64 4 = some .checkpoint ∧
      decodeTableWord 64 5 = some .restore ∧ decodeTableWord 64 6 = some .readState ∧
      decodeTableWord 64 7 = some .getStatus ∧ decodeTableWord 64 8 = none ∧
      decodeTableWord 128 (17 * 2 ^ 64 + 2) = some (.extractU64 17) := by decide

/-! ## Bytes, words and the buffer -/

/-- V-D4: the first word of the LE and (V-C5) BE views of the bytes `05 C6 33 1B 44 3A 42 1C`. -/
theorem test_wordView :
    composeWord .le [0x05, 0xC6, 0x33, 0x1B, 0x44, 0x3A, 0x42, 0x1C] = 0x1C423A441B33C605 ∧
      composeWord .be [0x05, 0xC6, 0x33, 0x1B, 0x44, 0x3A, 0x42, 0x1C] = 0x05C6331B443A421C := by
  decide

/-- R17, R59, R38: a read past the buffer, and a read of a byte that holds no value. -/
theorem test_memRead_faults :
    memRead 32 [] 25 8 = .error (.outsideBuffer 25) ∧
      memRead 32 [(24, 7)] 24 8 = .error (.unspecifiedByte 25) := by decide

/-! ## Absorption (R103 to R106) -/

/-- V-A4, L = 37 > N = 32: FOLD_ALL folds the last five bytes in, LITERAL drops them. -/
theorem test_absorb_remainder :
    absorb .foldAll 32 ((List.range 37).map fun t => BitVec.ofNat 8 (0x40 + t)) =
        List.replicate 5 0x20 ++ (List.range 27).map (fun t => BitVec.ofNat 8 (0x45 + t)) ∧
      absorb .literal 32 ((List.range 37).map fun t => BitVec.ofNat 8 (0x40 + t)) =
        (List.range 32).map (fun t => BitVec.ofNat 8 (0x40 + t)) := by decide +kernel

/-- V-A5, L = 64 = 2N. -/
theorem test_absorb_two_windows :
    absorb .foldAll 32 ((List.range 64).map fun t => BitVec.ofNat 8 (0x80 + t)) =
        List.replicate 32 0x20 ∧
      absorb .literal 32 ((List.range 64).map fun t => BitVec.ofNat 8 (0x80 + t)) =
        (List.range 32).map (fun t => BitVec.ofNat 8 (0x80 + t)) := by decide +kernel

/-! ## Diffusion, derivation and CONSTRUCT, with the default parameters -/

/-- 32 bytes as a block, written in address order. -/
def hexBlock (v : BitVec 256) : Block := packBytes 256 (unpackBytes 32 v).reverse

/-- V-D1: one round of a one-block ring, ORIGINAL and MODIFIED. -/
theorem test_diffRound_one_block :
    roundsBlocks (defaultParams 28) 1 [1] =
        [hexBlock 0x8FF0FF701B97043EA4CF2C1F5C07B312316CDDD88C4E6F3FA257B61651307D2F] ∧
      roundsBlocks { defaultParams 28 with degenUpdate := .modified } 1 [1] =
        [hexBlock 0x8EF2FC741E910336ADC527135109BC02207ECECC99587827BB4DAD0A4C2E620F] := by
  decide +kernel

/-- V-D2: the machine's round on a buffer of 64 zero bytes. -/
theorem test_diffRound_two_blocks :
    ((diffRound (defaultParams 28) 64 ((List.range 64).map fun a => (a, 0))).bind fun m =>
        return (← readBlock 64 m 0, ← readBlock 64 m 1)).toOption =
      some (hexBlock 0x113C1ED13A09D1AA27675D5F79F8B09A30076899262079ECE0BA741CE52ED8A5,
        hexBlock 0xC84916830D46C740EE4EF4642CE62DC4C551041149ED6E9875A63B19BAF93BEC) := by
  decide +kernel

/-- V-P1, rows 0x3, all ones and 0x8000000000000002. -/
theorem test_adjust :
    [0x3, 0xFFFFFFFFFFFFFFFF, 0x8000000000000002].map
        (fun v => (adjust 4 1 v, adjust 2 1 v, adjust 2 0 v)) =
      [(0x1, 0x3, 0x2), (0xFFFFFFFFFFFFFFFD, 0xFFFFFFFFFFFFFFFF, 0xFFFFFFFFFFFFFFFE),
        (0x8000000000000001, 0x8000000000000003, 0x8000000000000002)] := by decide

/-- The state a command leaves, where it answers one. -/
def after (r : Result) : Option State :=
  match r with
  | .next t => some t
  | .fault _ => none
  | .refused _ => none

/-- The response values on the port of the state a command leaves. -/
def answer (r : Result) : Option (List Word) := (after r).map fun t => t.respOut.map Flit.data

/-- V-D4, V-C1's `mult_x`: two rounds and the LE word view of the machine's buffer. -/
theorem test_nextArray :
    (nextArray (defaultParams 28) 32 ((List.range 32).map fun a => (a, if a = 0 then 1 else 0))).toOption.map
        Prod.fst =
      some [0x1C423A441B33C605, 0x1DC17DFE878C8149, 0x23651645E33FBBE6, 0x8F4DD12435075C83] := by
  decide +kernel

/-- CONSTRUCT with the identity as HASH256: by R125 every round of a one-block ring leaves
`A xor (A xor C) = C`, whose LE words are the six arrays, adjusted by R144. -/
theorem test_construct :
    (after (constructWith { defaultParams 28 with hash256 := id } 32 [0x01] State.reset)).map
        (fun t => (t.cfgN, t.buf.map Prod.snd, t.cur, decide (t.prev = t.cur), t.respOut)) =
      some (32, (List.range 32).map fun a => BitVec.ofNat 8 (a + 1),
        { multX := [0x0807060504030201, 0x100F0E0D0C0B0A09, 0x1817161514131211, 0x201F1E1D1C1B1A19]
          multA := [0x0807060504030201, 0x100F0E0D0C0B0A09, 0x1817161514131211, 0x201F1E1D1C1B1A19]
          multB := [0x0807060504030201, 0x100F0E0D0C0B0A09, 0x1817161514131211, 0x201F1E1D1C1B1A19]
          xorX := [0x0807060504030201, 0x100F0E0D0C0B0A09, 0x1817161514131211, 0x201F1E1D1C1B1A19]
          xorA := [0x0807060504030200, 0x100F0E0D0C0B0A08, 0x1817161514131210, 0x201F1E1D1C1B1A18]
          xorB := [0x0807060504030201, 0x100F0E0D0C0B0A09, 0x1817161514131211, 0x201F1E1D1C1B1A19]
          idxMult := 0
          idxXor := 0 },
        true, [⟨0x100, true⟩]) := by decide +kernel

/-- V-X3 to V-X7, on a block with `N_MAX = 1024` (index 28). -/
theorem test_construct_errors :
    [constructWith (defaultParams 28) 32 [] State.reset,
        constructWith (defaultParams 28) 33 [1] State.reset,
        constructWith (defaultParams 28) 0 [1] State.reset,
        constructWith (defaultParams 28) 33 [] State.reset,
        constructWith (defaultParams 28) 2048 [1] State.reset].map answer =
      [some [0x001], some [0x002], some [0x002], some [0x001], some [0x002]] := by decide +kernel

/-! ## Extraction on the hand-built bank B0 of 95_test_vectors.md 2.6 -/

/-- B0 with the given cursors. -/
def bank (idxMult idxXor : Nat) : Snapshot where
  multX := [1, 2, 3, 4]
  multA := [5, 5, 5, 5]
  multB := [1, 3, 5, 7]
  xorX := [0x10, 0x20, 0x30, 0x40]
  xorA := [2, 4, 6, 8]
  xorB := [1, 1, 1, 1]
  idxMult := idxMult
  idxXor := idxXor

/-- A READY block of 32 bytes, byte `a` holding `a`, with B0 as its bank and V-E7's cursors in `prev`. -/
def demo : State where
  life := .ready
  cfgN := 32
  buf := (List.range 32).map fun a => (a, BitVec.ofNat 8 a)
  cur := bank 0 0
  prev := bank 3 0
  cmdIn := []
  respOut := []

/-- V-E1 and V-E6. -/
theorem test_emitWords :
    (emitWords 4 5 (bank 0 0)).toOption =
        some ([0x16, 0x1D, 0x04, 0x0B, 0x4F],
          { bank 1 1 with multX := [0x4F, 0x1D, 0x04, 0x0B], xorX := [0x13, 0x20, 0x30, 0x40] }) ∧
      (emitWords 4 3 (bank 2 3)).toOption =
        some ([0x54, 0x5B, 0x16],
          { bank 1 0 with multX := [0x16, 0x02, 0x54, 0x5B], xorX := [0x10, 0x20, 0x30, 0x49] }) := by
  decide

/-- V-E9 and V-E10: the wraps of R172. -/
theorem test_emitOne_overflow :
    ((emitOne 4 { bank 0 0 with
        multA := [0xFFFFFFFFFFFFFFFD, 5, 5, 5]
        multX := [0xFFFFFFFFFFFFFFFF, 2, 3, 4]
        multB := [0xFFFFFFFFFFFFFFFF, 3, 5, 7]
        xorX := [0, 0, 0, 0] }).toOption.map Prod.fst) = some 0x2 ∧
      ((emitOne 4 { bank 3 0 with
          multA := [5, 5, 5, 1]
          multX := [1, 2, 3, 0]
          multB := [1, 3, 5, 1]
          xorX := [0xFFFFFFFFFFFFFFFF, 5, 5, 5]
          xorA := [0, 4, 6, 8] }).toOption.map fun r =>
        (r.1, r.2.xorX, r.2.idxMult, r.2.idxXor)) =
        some (0xFFFFFFFFFFFFFFFE, [0, 5, 5, 5], 0, 1) := by decide

/-- V-E2 as a command: one epoch moves `idx_xor` once; buffer and `prev` stay (R160). -/
theorem test_extractU64 :
    after (exec (.extractU64 4) demo) =
      some { demo with
        cur := { bank 0 1 with multX := [0x16, 0x1D, 0x04, 0x0B], xorX := [0x13, 0x20, 0x30, 0x40] }
        respOut := [⟨0x100, false⟩, ⟨0x16, false⟩, ⟨0x1D, false⟩, ⟨0x04, false⟩, ⟨0x0B, true⟩] } := by
  decide +kernel

/-- V-X9 to V-X12. -/
theorem test_extractU64_errors :
    [exec (.extractU64 1) State.reset, exec (.extractU64 (-1)) State.reset,
        exec (.extractU64 (-1)) demo, exec (.extractU64 0) demo].map answer =
      [some [0x004], some [0x004], some [0x103], some [0x100]] := by decide +kernel

/-- V-F1. -/
theorem test_f64Bits :
    [0x0, 0xFFE0000000000000, 0x1, 0x2, 0x3, 0x000FFFFFFFFFFFFF, 0x0010000000000000,
        0x0010000000000001, 0x001FFFFFFFFFFFFF, 0xFFFFFFFFFFFFFFFF].map f64Bits =
      [0x0, 0x0, 0x3CA0000000000000, 0x3CB0000000000000, 0x3CB8000000000000, 0x3FDFFFFFFFFFFFFE,
        0x3FE0000000000000, 0x3FE0000000000001, 0x3FEFFFFFFFFFFFFF, 0x3FEFFFFFFFFFFFFF] := by
  decide +kernel

/-- The word 0x16 of V-E1 is `22 * 2^-53 = 1.375 * 2^-49` (R183: exponent 974, fraction 0.375). -/
theorem test_extractF64 :
    (after (exec (.extractF64 1) demo)).map (fun t => (t.respOut, t.cur.multX, t.cur.idxMult)) =
      some ([⟨0x100, false⟩, ⟨0x3CE6000000000000, true⟩], [0x16, 2, 3, 4], 1) := by decide +kernel

/-! ## Bank, readout and status -/

theorem test_checkpoint :
    (after (exec .checkpoint demo)).map (fun t => (t.cur, t.prev, t.respOut)) =
      some (bank 0 0, bank 0 0, [⟨0x100, true⟩]) := by decide +kernel

theorem test_restore :
    (after (exec .restore demo)).map (fun t => (t.cur, t.prev, t.respOut)) =
      some (bank 3 0, bank 3 0, [⟨0x100, true⟩]) := by decide +kernel

/-- R201, R202: N, four buffer flits, 24 array words, two cursors. -/
theorem test_readState :
    answer (exec .readState { demo with cur := bank 2 3 }) =
      some [0x100, 0x20, 0x0706050403020100, 0x0F0E0D0C0B0A0908, 0x1716151413121110,
        0x1F1E1D1C1B1A1918, 1, 2, 3, 4, 5, 5, 5, 5, 1, 3, 5, 7, 0x10, 0x20, 0x30, 0x40, 2, 4, 6, 8,
        1, 1, 1, 1, 2, 3] := by decide +kernel

/-- V-R4's block (N = 128, `N_MAX = 1024`), and V-X19. -/
theorem test_getStatus :
    answer (getStatusWith (defaultParams 28) { demo with cfgN := 128 }) =
        some [0x100, 0x0000008000000001, 0x0000000000000400] ∧
      answer (getStatusWith (defaultParams 28) State.reset) = some [0x000, 0x0, 0x400] := by
  decide +kernel

/-- V-X18 and V-X20. -/
theorem test_lifecycle :
    [exec (.construct 32 [1]) demo, exec .checkpoint State.reset, exec .restore State.reset,
        exec .readState State.reset].map answer =
      [some [0x104], some [0x004], some [0x004], some [0x004]] := by decide +kernel

/-! ## The ports, reset and the step -/

/-- V-X13 to V-X15: one step answers a malformed frame and takes it off the port. -/
theorem test_step_malformed :
    after (step { demo with cmdIn := [.flit 0x106 true, .flit 0x04 true] }) =
        some { demo with cmdIn := [.flit 0x04 true], respOut := [⟨0x103, true⟩] } ∧
      answer (step { State.reset with cmdIn := [.flit 0x08 true] }) = some [0x003] ∧
      answer (step { demo with cmdIn := [.flit 0x00 true] }) = some [0x103] := by decide +kernel

/-- R272: a reset inside a frame discards its flits; the next flit starts a new frame. -/
theorem test_step_reset_in_frame :
    after (step { demo with cmdIn := [.flit 0x02 false, .reset, .flit 0x07 true] }) =
      some { State.reset with cmdIn := [.flit 0x07 true] } := by decide +kernel

/-- R249, R272: a reset during EXTRACT_U64 after two response flits. -/
theorem test_step_reset_in_command :
    after (step { demo with cmdIn := [.flit 0x02 false, .flit 0x04 true, .abort 2] }) =
      some { State.reset with respOut := [⟨0x100, false⟩, ⟨0x16, false⟩] } := by decide +kernel

/-- R279: an incomplete frame leaves the block waiting. -/
theorem test_step_waits :
    after (step { demo with cmdIn := [.flit 0x02 false] }) =
      some { demo with cmdIn := [.flit 0x02 false] } := by decide +kernel

/-- The first step after reset runs the word placed for it: CONSTRUCT with L = 0 fails with InvalidSeed,
EXTRACT_U64 and CHECKPOINT with InvalidState. -/
theorem test_step_withFetchWord :
    [step (State.reset.withFetchWord 64 1), step (State.reset.withFetchWord 64 2),
        step (State.reset.withFetchWord 64 4)].map answer =
      [some [0x001], some [0x004], some [0x004]] := by decide +kernel

/-! ## The host's texts (R86, R210 to R212) -/

theorem test_assembleLine :
    assembleLine "CONSTRUCT 32, 0a1b ; two bytes".toList = some [.construct 32 [0x0A, 0x1B]] ∧
      assembleLine "EXTRACT_U64 -1".toList = some [.extractU64 0xFFFFFFFFFFFFFFFF] ∧
      assembleLine "CONSTRUCT 0x21, \"\"".toList = some [.construct 33 []] ∧
      assembleLine "; nothing".toList = some [] ∧ assembleLine "EXTRACT_U64".toList = none := by
  decide +kernel

/-- V-F1's texts. -/
theorem test_floatText :
    [0x3CA0000000000000, 0x3FDFFFFFFFFFFFFE, 0x3FEFFFFFFFFFFFFF, 0x0].map
        (fun v => decimalText (floatScaled v)) =
      ["0.0000000000000001".toList, "0.4999999999999999".toList, "0.9999999999999999".toList,
        "0.0000000000000000".toList] := by decide +kernel

/-- V-R3's line (its first two words), P2's line of floats, and the empty value of R211. -/
theorem test_partText :
    partText (.words [0x40A8FCC5136A877D, 0x8CD1312AC6D96FD1]) =
        "v_vec_u64:40A8FCC5136A877D,8CD1312AC6D96FD1\n".toList ∧
      partText (.floats ([0x3FEEDB7D90B6D4D9, 0x3F6794E80D578600].map floatScaled)) =
        "v_vec_f64:0.9642932726334507,0.0028786213176637\n".toList ∧
      partText (.words []) = "v_vec_u64:\n".toList := by decide +kernel

/-- A READ_STATE payload of one word each. -/
def smallPayload : List Word := [8, 0x0807060504030201, 2, 3, 4, 5, 6, 7, 0, 10]

/-- R214 on two state blocks with an output line of each kind between them. -/
theorem test_parseDump :
    let parts := [.block smallPayload, .words [], .words [1, 0xABCDEF], .floats [9999999999999999, 1],
      .block smallPayload]
    parseDump (dumpText parts) = some parts := by decide +kernel

/-- Log 24: a missing line feed, a lower-case digit and a cursor with a leading zero are no dump. -/
theorem test_parseDump_rejects :
    ["v_vec_u64:00000000000000FF", "v_vec_u64:00000000000000ff\n", "v_vec_u64:0F\n", "\n"].map
        (fun text => parseDump text.toList) = [none, none, none, none] ∧
      parseDump ((dumpText [.block smallPayload]).dropLast.dropLast.dropLast ++ "010\n".toList) = none := by
  decide +kernel

/-- R212 on the demo block: the epoch of V-E2, one refused call and a CHECKPOINT write one line and one
block, whose payload ends with the cursors 0 and 1. -/
theorem test_hostSession :
    (match hostSession [.extractU64 4, .extractU64 (-1), .checkpoint] demo with
      | .next (parts, _) => parts.map fun part => match part with
        | .block payload => payload.drop 29
        | .words values => values
        | .floats _ => []
      | _ => []) = [[0x16, 0x1D, 0x04, 0x0B], [0, 1]] := by decide +kernel

/-! ## Witnesses: states and operands that meet the hypotheses of each statement -/

/-- With nothing after it on the port, no reset hits a command. -/
theorem no_abort : ∀ k later, ([] : List PortEvent) ≠ .abort k :: later := by simp

theorem demo_inv : demo.Inv where
  buf_addresses := by decide +kernel
  cur_shaped := by decide +kernel
  prev_shaped := by decide +kernel
  cur_parity := by simp [Snapshot.Parity, demo, bank]
  prev_parity := by simp [Snapshot.Parity, demo, bank]
  uninit_size := by decide
  ready_size := fun _ => legalSize_iff.2
    ⟨by decide, by decide, Nat.le_trans (by decide : (32 : Nat) ≤ 128) (le_nMax Config.params)⟩
  ready_cur_cursors := fun _ => by decide +kernel
  ready_prev_cursors := fun _ => by decide +kernel

theorem reset_inv : State.reset.Inv where
  buf_addresses := by decide
  cur_shaped := by decide +kernel
  prev_shaped := by decide +kernel
  cur_parity := by simp [Snapshot.Parity, State.reset, Snapshot.empty]
  prev_parity := by simp [Snapshot.Parity, State.reset, Snapshot.empty]
  uninit_size := fun _ => rfl
  ready_size := by decide
  ready_cur_cursors := by decide
  ready_prev_cursors := by decide

theorem witness_DecodeEncodeRoundTrip :
    (Instr.construct 0xFFFFFFFFFFFFFFFF [1, 2, 3]).WellFormed ∧ (Instr.construct 0 []).WellFormed ∧
      (Instr.extractU64 0x8000000000000000).WellFormed := by decide

theorem witness_DecodedFramesHaveTheirFormat :
    decodeFrame [1, 32, 1, 0xFF01] = .ok (.construct 32 [1]) ∧
      decodeFrame [2, 5] = .ok (.extractU64 5) ∧ ∀ n seed, Instr.extractU64 5 ≠ .construct n seed :=
  ⟨by decide, by decide, fun _ _ h => by cases h⟩

/-- Both clauses, with an empty seed and with one that ends inside a flit. -/
theorem witness_SeedBytesArePackedAndPaddingIsIgnored :
    ([] : List Word).length = ((0 : Word).toNat + 7) / 8 ∧
      [0x71605F4E3D2C1B0A, 0x82].length = ((9 : Word).toNat + 7) / 8 ∧
      ∀ j < (9 : Word).toNat,
        ([0x71605F4E3D2C1B0A, 0x82] : List Word)[j / 8]?.map
            (fun f => f.extractLsb' (8 * (j % 8)) 8) =
          ([0x71605F4E3D2C1B0A, 0xFF82] : List Word)[j / 8]?.map
            fun f => f.extractLsb' (8 * (j % 8)) 8 := by decide

/-- Header 0, the first and last reserved opcode, the lowest RSVD bit and the greatest header. -/
theorem witness_ReservedHeadersGetInvalidArgument :
    ∀ header ∈ ([0, 8, 0xFF, 0x101, 0xFFFFFFFFFFFFFFFF] : List Word),
      receive { demo with cmdIn := [.flit header true] }.cmdIn = .frame [header] [] ∧
        (header = 0 ∨ 8 ≤ header.toNat) := by
  intro header h
  simp only [List.mem_cons, List.not_mem_nil, or_false] at h
  rcases h with rfl | rfl | rfl | rfl | rfl <;> exact ⟨rfl, by decide⟩

/-- A frame of each clause, one flit short or one too long. -/
theorem witness_WrongFlitCountsGetInvalidArgument :
    receive (frameEvents [1, 32]) = .frame [1, 32] [] ∧ ([32] : List Word).length < 2 ∧
      receive (frameEvents [1, 32, 8, 0, 0]) = .frame [1, 32, 8, 0, 0] [] ∧
      ([0, 0] : List Word).length ≠ ((8 : Word).toNat + 7) / 8 ∧
      receive (frameEvents [3]) = .frame [3] [] ∧ ([] : List Word).length ≠ 1 ∧
      receive (frameEvents [7, 0]) = .frame [7, 0] [] ∧ ([0] : List Word).length ≠ 0 := by
  decide +kernel

theorem witness_StepRunsTheDecodedCommand :
    receive { demo with cmdIn := frameEvents [2, 4] }.cmdIn = .frame [2, 4] [] ∧
      (∀ k later, ([] : List PortEvent) ≠ .abort k :: later) ∧
      decodeFrame [2, 4] = .ok (.extractU64 4) := ⟨by decide +kernel, no_abort, by decide⟩

theorem witness_EncodedFrameOnThePortRuns :
    (Instr.extractF64 3).WellFormed ∧ ∀ k later, ([] : List PortEvent) ≠ .abort k :: later :=
  ⟨by decide, no_abort⟩

theorem witness_IncompleteFrameWaitsForItsRest :
    { demo with cmdIn := [.flit 2 false] }.cmdIn = [2].map (fun d => .flit d false) ∧
      ([5] : List Word) ≠ [] := by decide +kernel

theorem witness_ResetDiscardsThePartialFrame :
    { demo with cmdIn := [.flit 2 false, .reset, .flit 7 true] }.cmdIn =
        [2].map (fun d => .flit d false) ++ .reset :: [.flit 7 true] ∧
      { demo with cmdIn := [.reset] }.cmdIn = ([].map fun d => .flit d false) ++ .reset :: [] := by
  decide +kernel

theorem witness_ResetDuringACommandWins :
    State.Inv { demo with cmdIn := frameEvents [2, 4] ++ [.abort 2] } ∧
      receive (frameEvents [2, 4] ++ [.abort 2]) = .frame [2, 4] (.abort 2 :: []) :=
  ⟨⟨demo_inv.1, demo_inv.2, demo_inv.3, demo_inv.4, demo_inv.5, demo_inv.6, demo_inv.7, demo_inv.8,
    demo_inv.9⟩, by decide +kernel⟩

/-- A malformed frame, and one that succeeds. -/
theorem witness_FailingCommandsWriteNothing :
    runFrame exec [6, 0] demo = .next { demo with respOut := [⟨0x103, true⟩] } ∧
      runFrame exec [4] demo =
        .next { demo with prev := bank 0 0, respOut := [⟨0x100, true⟩] } := ⟨rfl, rfl⟩

theorem witness_LifecycleGatesTheCommands :
    State.reset.life = .uninit ∧ demo.life = .ready ∧
      Instr.readState ∈ [Instr.extractU64 1, .extractF64 1, .checkpoint, .restore, .readState] := by
  decide

/-- Both clauses where they meet: the last byte of the buffer, and one past it; the empty write too. -/
theorem witness_MemWriteThenMemRead :
    31 + [(1 : Byte)].length ≤ 32 ∧ 32 < 32 + [(1 : Byte)].length ∧ 32 + ([] : List Byte).length ≤ 32 ∧
      Memory.wf demo.buf := by decide +kernel

theorem witness_WordViewComposesEightBytes :
    8 * 3 + 8 ≤ 32 ∧ ∀ t < 8, readByte demo.buf (8 * 3 + t) = some (BitVec.ofNat 8 (24 + t)) := by
  decide +kernel

theorem witness_BlockWriteChangesItsFourWords : ∃ m', writeBlock 32 demo.buf 0 0 = .ok m' :=
  ⟨_, writeBlock_eq_ok.2 ⟨by decide, rfl⟩⟩

/-- Both clauses where they meet: `L = N` and `L = N + 1`. -/
theorem witness_LiteralDropsTheLastWindow :
    0 < 32 ∧ (List.replicate 32 (1 : Byte)).length ≤ 32 ∧ 32 < (List.replicate 33 (1 : Byte)).length := by
  decide

theorem witness_ShortSeedsAreCopied :
    1 ≤ [(1 : Byte)].length ∧ [(1 : Byte)].length ≤ 32 ∧ 1 ≤ (List.replicate 32 (1 : Byte)).length ∧
      (List.replicate 32 (1 : Byte)).length ≤ 32 := by decide

/-- A ring of one block, whose step 0 mixes it with itself. -/
theorem witness_RingStepWritesOneMixedBlock :
    ∃ a : Block, 32 % 32 = 0 ∧ 0 < 32 / 32 ∧ readBlock 32 demo.buf 0 = .ok a ∧
      readBlock 32 demo.buf ((0 + 1) % (32 / 32)) = .ok a := by
  obtain ⟨a, h⟩ := (Memory.Holds.of_addresses demo_inv.buf_addresses).readBlock (i := 0) (by decide)
  exact ⟨a, rfl, by decide, h, h⟩

theorem witness_OneBlockRingRound : ∃ a : Block, readBlock 32 demo.buf 0 = .ok a := by
  obtain ⟨a, -, -, h, -⟩ := witness_RingStepWritesOneMixedBlock
  exact ⟨a, h⟩

/-- A buffer of 64 zero bytes, the smallest ring of two blocks. -/
theorem witness_RoundChainsTheRing :
    64 % 32 = 0 ∧ 64 ≤ 64 ∧
      ∀ i < 64 / 32, ∃ b, readBlock 64 ((List.range 64).map fun a => (a, (0 : Byte))) i = .ok b := by
  refine ⟨rfl, le_refl _, fun i hi => ?_⟩
  exact (Memory.Holds.of_addresses (by decide +kernel)).readBlock (by omega)

/-- The smallest size, and the capacity itself. -/
theorem witness_ConstructLeavesTheDerivedState :
    State.reset.life = .uninit ∧ [(1 : Byte)] ≠ [] ∧
      ∀ n ∈ [32, Config.params.nMax], (BitVec.ofNat 64 n).toNat ≠ 0 ∧ (BitVec.ofNat 64 n).toNat % 32 = 0 ∧
        (BitVec.ofNat 64 n).toNat ≤ Config.params.nMax := by
  have h := le_nMax Config.params
  have h' := nMax_lt Config.params
  have hm : Config.params.nMax % 32 = 0 := by unfold Params.nMax; omega
  refine ⟨rfl, by decide, fun n hn => ?_⟩
  simp only [List.mem_cons, List.not_mem_nil, or_false] at hn
  rw [BitVec.toNat_ofNat]
  rcases hn with rfl | rfl <;> omega

/-- No seed; and the sizes 0, 33 and one past the capacity. -/
theorem witness_ConstructErrorsInOrder :
    State.reset.life = .uninit ∧ ([] : List Byte).length = 0 ∧ [(1 : Byte)].length ≠ 0 ∧
      (0 : Word).toNat = 0 ∧ (33 : Word).toNat % 32 ≠ 0 ∧
      Config.params.nMax < (BitVec.ofNat 64 (Config.params.nMax + 32)).toNat := by
  have h' := nMax_lt Config.params
  refine ⟨rfl, rfl, by decide, rfl, by decide, ?_⟩
  rw [BitVec.toNat_ofNat]; omega

/-- Inside an epoch and at its end. -/
theorem witness_EmitOneAdvancesLaneThenGenerator :
    (bank 2 0).Shaped 4 ∧ (bank 2 0).CursorsBelow 4 ∧ (bank 3 3).Shaped 4 ∧ (bank 3 3).CursorsBelow 4 := by
  decide

theorem witness_ExtractU64WalksTheStream :
    demo.Inv ∧ demo.life = .ready ∧ 0 ≤ (0 : Word).toInt ∧ 0 ≤ (0x7FFFFFFFFFFFFFFF : Word).toInt :=
  ⟨demo_inv, rfl, by decide, by decide⟩

theorem witness_ExtractF64WalksTheStream :
    demo.Inv ∧ demo.life = .ready ∧ 0 ≤ (0 : Word).toInt ∧ 0 ≤ (0x7FFFFFFFFFFFFFFF : Word).toInt :=
  ⟨demo_inv, rfl, by decide, by decide⟩

theorem witness_FloatsDrawTheSameStream :
    demo.life = .ready ∧ 0 ≤ (1 : Word).toInt ∧
      ∃ t, exec (.extractU64 1) demo = .next t ∧ t.respOut = demo.respOut ++ frameOf (0x100 :: [0x16]) :=
  ⟨rfl, by decide, _, rfl, by decide +kernel⟩

/-- Words with `m = 0` and with `m` at its greatest. -/
theorem witness_F64BitsHasTheExactValue :
    (0xFFE0000000000000 : Word).toNat % 2 ^ 53 = 0 ∧ (1 : Word).toNat % 2 ^ 53 ≠ 0 ∧
      (0xFFFFFFFFFFFFFFFF : Word).toNat % 2 ^ 53 ≠ 0 := by decide

theorem witness_F64BitsRange : (0xFFFFFFFFFFFFFFFF : Word).toNat % 2 ^ 53 = 2 ^ 53 - 1 := by decide

theorem witness_CursorArithmetic : (bank 3 3).Shaped 4 ∧ (bank 3 3).CursorsBelow 4 := by decide

theorem witness_MaskIsFixedWithinAnEpoch :
    (bank 0 0).Shaped 4 ∧ (bank 0 0).CursorsBelow 4 ∧ (bank 0 0).idxMult + 3 < 4 := by decide

theorem witness_FullEpochAdvancesTheGeneratorOnce :
    (bank 0 3).Shaped 4 ∧ (bank 0 3).CursorsBelow 4 ∧ (bank 0 3).idxMult = 0 := by decide

theorem witness_ConsecutiveExtractionsConcatenate :
    demo.Inv ∧ demo.life = .ready ∧ 0 ≤ (2 : Word).toInt ∧ 0 ≤ (0x7FFFFFFFFFFFFFFD : Word).toInt ∧
      (0x7FFFFFFFFFFFFFFF : Word).toInt = (2 : Word).toInt + (0x7FFFFFFFFFFFFFFD : Word).toInt :=
  ⟨demo_inv, rfl, by decide, by decide, by decide⟩

theorem witness_ZeroAmountWritesNothing : demo.life = .ready := rfl

theorem witness_NegativeAmountsFail :
    demo.life = .ready ∧ 0x8000000000000000 ≤ (0x8000000000000000 : Word).toNat ∧
      0x8000000000000000 ≤ (0xFFFFFFFFFFFFFFFF : Word).toNat := by decide

theorem witness_CheckpointCopiesCurIntoPrev : demo.life = .ready ∧ demo.prev ≠ demo.cur := by
  decide +kernel

theorem witness_RestoreCopiesPrevIntoCur : demo.life = .ready ∧ demo.prev ≠ demo.cur := by
  decide +kernel

theorem witness_RestoreReplaysTheStream :
    State.Inv { demo with prev := demo.cur } ∧ { demo with prev := demo.cur }.life = .ready ∧
      { demo with prev := demo.cur }.prev = demo.cur ∧ (∀ i ∈ [Instr.extractU64 5, .getStatus], Draws i) ∧
      ∀ i ∈ [Instr.extractF64 3, .readState], Draws i :=
  ⟨⟨demo_inv.1, demo_inv.2, demo_inv.2, demo_inv.4, demo_inv.4, demo_inv.6, demo_inv.7, demo_inv.8,
    demo_inv.8⟩, rfl, rfl, by simp [Draws], by simp [Draws]⟩

theorem witness_ReadStateReturnsTheWholeState : demo.Inv ∧ demo.life = .ready := ⟨demo_inv, rfl⟩

theorem witness_ReadoutsChangeNoOtherResponse :
    ∃ t u, exec .readState demo = .next t ∧ exec (.extractU64 2) demo = .next u := ⟨_, _, rfl, rfl⟩

theorem witness_StepKeepsTheInvariant :
    demo.Inv ∧ (∃ t, step demo = .next t) ∧ State.reset.Inv ∧
      ∃ t, step (State.reset.withFetchWord 64 2) = .next t := ⟨demo_inv, ⟨_, rfl⟩, reset_inv, ⟨_, rfl⟩⟩

theorem witness_StepAlwaysAnswersFromTheInvariant : demo.Inv ∧ State.reset.Inv := ⟨demo_inv, reset_inv⟩

/-- A command that changes the bank, from READY to READY. -/
theorem witness_ParityHoldsWhileReady :
    (demo.cur.Parity ∧ demo.prev.Parity) ∧
      ∃ t, step { demo with cmdIn := frameEvents [2, 4] } = .next t ∧ t.life = .ready :=
  ⟨⟨demo_inv.cur_parity, demo_inv.prev_parity⟩, _, rfl, rfl⟩

/-- From READY to UNINIT by a reset, by a reset during a command, and from UNINIT to READY. -/
theorem witness_LifecycleChangesOnlyByConstructAndReset :
    (∃ t, step { demo with cmdIn := [.reset] } = .next t ∧ t.life = .uninit) ∧
      (∃ t, step { demo with cmdIn := [.flit 4 true, .abort 0] } = .next t ∧ t.life = .uninit) ∧
      ∃ t, step { State.reset with cmdIn := frameEvents [1, 32, 1, 1] } = .next t ∧ t.life = .ready := by
  refine ⟨⟨_, rfl, rfl⟩, ⟨_, rfl, rfl⟩, ?_⟩
  obtain ⟨c, m, he, -⟩ := initialise_spec Config.params (n := 32) [1] State.reset (by decide)
  have hz : legalSize Config.params.nMax (32 : Word).toNat = true :=
    legalSize_iff.2 ⟨by decide, by decide, Nat.le_trans (by decide) (le_nMax Config.params)⟩
  have hx : exec (.construct 32 [1]) State.reset = .next _ :=
    constructWith_eq_next.2 (.inr (.inr (.inr ⟨rfl, by decide, hz, _, he, rfl⟩)))
  exact ⟨_, step_eq_next.2 (.inr (.inr ⟨[1, 32, 1, 1], [], _, by decide +kernel,
    runFrame_eq_next.2 (.inl ⟨_, by decide, hx⟩), .inr ⟨no_abort, rfl⟩⟩)), rfl⟩

theorem witness_BufferIsFixedWhileReady :
    ∃ t, step { demo with cmdIn := frameEvents [2, 4] } = .next t ∧ demo.life = .ready ∧ t.life = .ready :=
  ⟨_, rfl, rfl, rfl⟩

theorem witness_PrevIsTouchedOnlyByCopies :
    (∃ t, exec .checkpoint demo = .next t) ∧ (∃ t, exec (.extractU64 4) demo = .next t) ∧
      Instr.extractU64 4 ≠ .restore := ⟨⟨_, rfl⟩, ⟨_, rfl⟩, by decide⟩

theorem witness_CommandsIgnoreThePorts : ∃ t, exec .readState demo = .next t := ⟨_, rfl⟩

theorem witness_UnspecifiedValuesAreUnobservable : State.reset.life = .uninit := rfl

/-- Parts of each kind, at the ends of their ranges. -/
theorem witness_DumpParsesBackToItsPayload :
    parseDump (dumpText [.block smallPayload, .words []]) = some [.block smallPayload, .words []] ∧
      1 ≤ 1 ∧ smallPayload.length = 3 + 7 * 1 ∧ (smallPayload.headD 0).toNat = 8 * 1 ∧
      0 < 10 ^ 16 ∧ 9999999999999999 < 10 ^ 16 := by decide +kernel

/-- A state in which CONSTRUCT succeeds, for the first clause. -/
theorem witness_HostDumpSchedule_construct :
    ∃ t u state, exec (.construct 32 [1]) State.reset = .next t ∧
      t.respOut = State.reset.respOut ++ frameOf (0x100 :: []) ∧ exec .readState t = .next u ∧
      u.respOut = t.respOut ++ frameOf (0x100 :: state) := by
  obtain ⟨c, m, he, hc, hr, -, -⟩ := initialise_spec Config.params (n := 32) [1] State.reset (by decide)
  have hz : legalSize Config.params.nMax (32 : Word).toNat = true :=
    legalSize_iff.2 ⟨by decide, by decide, Nat.le_trans (by decide) (le_nMax Config.params)⟩
  have hx : exec (.construct 32 [1]) State.reset = .next _ :=
    constructWith_eq_next.2 (.inr (.inr (.inr ⟨rfl, by decide, hz, _, he, rfl⟩)))
  have hs : c.Shaped (wordCount 32) := by
    subst hc
    refine ⟨?_, ?_, ?_, ?_, ?_, ?_⟩ <;>
      simp [ringWords_length, roundsBlocks_length, blocksOf_length, blockCount, wordCount]
  obtain ⟨state, hp⟩ : ∃ state, readStatePayload (respond .ok [] { State.reset with
      life := .ready, cfgN := (32 : Word).setWidth 32, buf := m, cur := c, prev := c }) = .ok state :=
    ⟨_, readStatePayload_ok hs hr (by change ((32 : Word).setWidth 32 : BitVec 32).toNat % 32 = 0; decide)⟩
  have h100 : statusFlit .ok .ready = 0x100 := by decide
  exact ⟨_, _, state, hx, by simp [h100], execReadState_eq_next.2 (.inr ⟨rfl, state, hp, rfl⟩), by simp [h100]⟩

/-- An extraction that succeeds, one that is refused, and two sessions in a row. -/
theorem witness_HostDumpSchedule :
    (∃ t u state, exec (.extractU64 4) demo = .next t ∧
      t.respOut = demo.respOut ++ frameOf (0x100 :: [0x16, 0x1D, 0x04, 0x0B]) ∧
      exec .readState t = .next u ∧ u.respOut = t.respOut ++ frameOf (0x100 :: state)) ∧
      (∃ t, exec (.extractU64 (-1)) demo = .next t ∧
        t.respOut = demo.respOut ++ [⟨statusFlit .invalidArgument demo.life, true⟩]) ∧
      ∃ t u written after, hostSession [.checkpoint] demo = .next (written, t) ∧
        hostSession [.restore] t = .next (after, u) := by
  exact ⟨⟨_, _, _, rfl, by decide +kernel, rfl, rfl⟩, ⟨_, rfl, rfl⟩, _, _, _, _, rfl, rfl⟩

end Sys2Proof.Tests
end

