-- ==== Sys2Proof/Proofs/Memory.lean ====
section
/-! PROOF. The state buffer's accesses of R17: what a write stores, what it leaves, where it faults. -/

namespace Sys2Proof.Machine

/-- Read after write: the bytes just stored, wherever they lie inside the buffer. -/
theorem memRead_writeBytes_same {n : Nat} (m : Memory) {a : Nat} {vs : List Byte}
    (hn : a + vs.length ≤ n) : memRead n (writeBytes m a vs) a vs.length = .ok vs := by
  refine memRead_eq_ok.2 ⟨hn, rfl, fun t ht => ?_⟩
  have hin : a ≤ a + t ∧ a + t < a + vs.length := by omega
  rw [readByte_writeBytes, if_pos hin, Nat.add_sub_cancel_left]

/-- The frame of a multi-byte write: a byte below or above it reads as before. -/
theorem readByte_writeBytes_of_outside (m : Memory) {a b : Nat} {vs : List Byte}
    (hb : b < a ∨ a + vs.length ≤ b) : readByte (writeBytes m a vs) b = readByte m b := by
  have hout : ¬ (a ≤ b ∧ b < a + vs.length) := by omega
  rw [readByte_writeBytes, if_neg hout]

/-- A write that runs past the end of the buffer faults at its first address (log 22). -/
theorem memWrite_of_outside {n : Nat} (m : Memory) {a : Nat} {vs : List Byte}
    (hn : n < a + vs.length) : memWrite n m a vs = .error (.outsideBuffer a) :=
  if_neg (Nat.not_le.2 hn)

/-- Settles O16: inside the buffer the next memory is `writeBytes`, whose read-back, frame and canonical
form are laws of their own; outside, the write faults. -/
theorem memWriteThenMemRead : Obligations.MemWriteThenMemRead := by
  intro n m a v
  constructor
  · intro hin
    exact ⟨writeBytes m a v, memWrite_eq_ok.2 ⟨hin, rfl⟩, memRead_writeBytes_same m hin,
      fun b hb => readByte_writeBytes_of_outside m hb, fun hwf => writeBytes_wf hwf a v⟩
  · intro hout
    exact memWrite_of_outside m hout

end Sys2Proof.Machine
end

