-- ==== Sys2Proof/Proofs/Adjust.lean ====
section
/-! PROOF. The parity adjustment (R143): what it leaves modulo `m`, and R144's closed forms. -/

namespace Sys2Proof.Machine

/-- R143 as arithmetic on numbers: for a modulus that divides `2^64` no step wraps (R144). -/
theorem toNat_adjust {m c : Word} (v : Word) (hc : c.toNat < m.toNat) (hm : m.toNat ∣ 2 ^ 64) :
    (adjust m c v).toNat = v.toNat - v.toNat % m.toNat + c.toNat := by
  obtain ⟨k, hk⟩ := hm
  have hle : v.toNat % m.toNat ≤ v.toNat := Nat.mod_le _ _
  have hsub : (v - v % m).toNat = v.toNat - v.toNat % m.toNat := by
    rw [BitVec.toNat_sub_of_le (by rwa [BitVec.le_def, BitVec.toNat_umod]), BitVec.toNat_umod]
  have hquot : v.toNat / m.toNat + 1 ≤ k :=
    Nat.div_lt_of_lt_mul (hk ▸ v.isLt)
  have hroom : v.toNat - v.toNat % m.toNat + m.toNat ≤ 2 ^ 64 := calc
    _ = m.toNat * (v.toNat / m.toNat + 1) := by
      rw [Nat.mul_succ]; have := Nat.div_add_mod v.toNat m.toNat; omega
    _ ≤ 2 ^ 64 := hk ▸ Nat.mul_le_mul_left _ hquot
  rw [adjust, BitVec.toNat_add, hsub, Nat.mod_eq_of_lt (by omega)]

/-- What the adjustment is for: it leaves the residue `c` (R29, R143). -/
theorem adjust_umod {m c : Word} (v : Word) (hc : c.toNat < m.toNat) (hm : m.toNat ∣ 2 ^ 64) :
    adjust m c v % m = c := by
  apply BitVec.eq_of_toNat_eq
  rw [BitVec.toNat_umod, toNat_adjust v hc hm, Nat.add_mod,
    Nat.mod_eq_zero_of_dvd (Nat.dvd_sub_mod _), Nat.zero_add, Nat.mod_mod, Nat.mod_eq_of_lt hc]

/-- Masking the `k` low bits off shifts them out. -/
theorem and_allOnes_shiftLeft (v : Word) (k : Nat) :
    v &&& (BitVec.allOnes 64 <<< k) = v >>> k <<< k := by
  ext i hi
  by_cases h : i < k
  · simp [h]
  · rw [BitVec.getElem_and, BitVec.getElem_shiftLeft, BitVec.getElem_allOnes]
    simp [h, show k + (i - k) = i by omega, BitVec.getLsbD_eq_getElem hi]

/-- Taking off the remainder by `2^k` masks the `k` low bits off. -/
theorem sub_umod_twoPow {m : Word} {k : Nat} (hm : m.toNat = 2 ^ k) (v : Word) :
    v - v % m = v &&& (BitVec.allOnes 64 <<< k) := by
  rw [and_allOnes_shiftLeft]
  apply BitVec.eq_of_toNat_eq
  have hdm := Nat.div_add_mod' v.toNat (2 ^ k)
  have hlt : v.toNat < 2 ^ 64 := v.isLt
  rw [BitVec.toNat_sub_of_le (by rw [BitVec.le_def, BitVec.toNat_umod]; exact Nat.mod_le _ _),
    BitVec.toNat_umod, hm, BitVec.toNat_shiftLeft, BitVec.toNat_ushiftRight,
    Nat.shiftRight_eq_div_pow, Nat.shiftLeft_eq]
  generalize v.toNat / 2 ^ k * 2 ^ k = high at *
  rw [Nat.mod_eq_of_lt (show high < 2 ^ 64 by omega)]
  exact Nat.sub_eq_of_eq_add hdm.symm

theorem adjust_four_one_eq (v : Word) : adjust 4 1 v = (v &&& 0xFFFFFFFFFFFFFFFC) + 1 := by
  rw [adjust, sub_umod_twoPow (k := 2) rfl]
  rfl

theorem adjust_two_zero_eq (v : Word) : adjust 2 0 v = v &&& 0xFFFFFFFFFFFFFFFE := by
  rw [adjust, sub_umod_twoPow (k := 1) rfl]
  exact BitVec.add_zero _

theorem adjust_two_one_eq (v : Word) : adjust 2 1 v = v ||| 1 := by
  rw [adjust, sub_umod_twoPow (k := 1) rfl, and_allOnes_shiftLeft, BitVec.add_eq_or_of_and_eq_zero]
  · ext i hi
    cases i with
    | zero => simp
    | succ i => simp [Nat.add_comm 1 i, BitVec.getLsbD_eq_getElem hi]
  · ext i hi
    cases i with
    | zero => simp
    | succ i => simp

end Sys2Proof.Machine
end

