-- ==== Sys2Proof/Proofs/Construct.lean ====
section
/-! PROOF. CONSTRUCT as one equation (R39, R100): the state it leaves, and the parity, shape and bytes of
what it derives. -/

namespace Sys2Proof.Machine

/-- The blocks of the buffer once a seed is absorbed into it (R100). -/
def absorbedRing (p : Params) (n : Nat) (seed : List Byte) : List Block :=
  blocksOf (blockCount n) (absorb p.absorbVariant n seed)

/-- The word view after `k` rounds over a ring (R141, R142). -/
def wordsAfter (p : Params) (ring : List Block) (k : Nat) : List Word :=
  ringWords p.wordOrder (roundsBlocks p k ring)

/-- The snapshot derived from the word views `words k` after `k` rounds (R140 to R145). -/
def derivedSnapshot (words : Nat → List Word) : Snapshot where
  multX := words 2
  multA := (words 4).map (adjust 4 1)
  multB := (words 6).map (adjust 2 1)
  xorX := words 8
  xorA := (words 10).map (adjust 2 0)
  xorB := (words 12).map (adjust 2 1)
  idxMult := 0
  idxXor := 0

/-- The block after CONSTRUCT of `n` bytes, but for its response; `m` is the buffer left (R39, R100). -/
def constructed (p : Params) (n : Word) (seed : List Byte) (m : Memory) (s : State) : State where
  life := .ready
  cfgN := n.setWidth 32
  buf := m
  cur := derivedSnapshot (wordsAfter p (absorbedRing p n.toNat seed))
  prev := derivedSnapshot (wordsAfter p (absorbedRing p n.toNat seed))
  cmdIn := s.cmdIn
  respOut := s.respOut

section constructed
variable (p : Params) (n : Word) (seed : List Byte) (m : Memory) (s : State)
@[simp] theorem constructed_life : (constructed p n seed m s).life = .ready := rfl
@[simp] theorem constructed_cfgN : (constructed p n seed m s).cfgN = n.setWidth 32 := rfl
@[simp] theorem constructed_buf : (constructed p n seed m s).buf = m := rfl
@[simp] theorem constructed_cur :
    (constructed p n seed m s).cur = derivedSnapshot (wordsAfter p (absorbedRing p n.toNat seed)) := rfl
@[simp] theorem constructed_prev :
    (constructed p n seed m s).prev = derivedSnapshot (wordsAfter p (absorbedRing p n.toNat seed)) := rfl
@[simp] theorem constructed_cmdIn : (constructed p n seed m s).cmdIn = s.cmdIn := rfl
@[simp] theorem constructed_respOut : (constructed p n seed m s).respOut = s.respOut := rfl
end constructed

/-- A CONSTRUCT with a nonempty seed and a legal size succeeds in UNINIT, whatever buffer and bank the
block holds (R38, R39, R100). -/
theorem exec_construct_of_legal {s : State} {n : Word} {seed : List Byte} (hl : s.life = .uninit)
    (hs : seed ≠ []) (hz : legalSize Config.params.nMax n.toNat = true) :
    ∃ m, exec (.construct n seed) s =
        .next (respond .ok [] (constructed Config.params n seed m s)) ∧
      Memory.Ring n.toNat m
        (roundsBlocks Config.params 12 (absorbedRing Config.params n.toNat seed)) ∧
      (s.buf = [] → m.map Prod.fst = List.range n.toNat) ∧
      ∀ a, n.toNat ≤ a → readByte m a = readByte s.buf a := by
  obtain ⟨-, hmod, -⟩ := legalSize_iff.1 hz
  obtain ⟨c, m, hinit, rfl, hring, haddr, hframe⟩ :=
    initialise_spec Config.params seed s hmod
  exact ⟨m, constructWith_eq_next.2 (.inr (.inr (.inr ⟨hl, hs, hz, _, hinit, rfl⟩))), hring, haddr,
    hframe⟩

/-- A legal size keeps its value in the 32 bits of CFG_N (R9, R21). -/
theorem toNat_setWidth_of_legal {n : Word} (hz : legalSize Config.params.nMax n.toNat = true) :
    (n.setWidth 32).toNat = n.toNat := by
  obtain ⟨-, -, hle⟩ := legalSize_iff.1 hz
  have := nMax_lt Config.params
  rw [BitVec.toNat_setWidth, Nat.mod_eq_of_lt (by omega)]

theorem absorbedRing_length (p : Params) (n : Nat) (seed : List Byte) :
    (absorbedRing p n seed).length = blockCount n := blocksOf_length _ _

/-- The word view of a buffer of whole blocks has `W` words, after any number of rounds (R8). -/
theorem wordsAfter_length (p : Params) {n : Nat} (seed : List Byte) (hn : n % 32 = 0) (k : Nat) :
    (wordsAfter p (absorbedRing p n seed) k).length = wordCount n := by
  rw [wordsAfter, ringWords_length, roundsBlocks_length, absorbedRing_length]
  unfold blockCount wordCount
  omega

/-- Derivation from views of `w` words fills six arrays of `w` words (R26, R140). -/
theorem derivedSnapshot_shaped {words : Nat → List Word} {w : Nat}
    (hw : ∀ k, (words k).length = w) : (derivedSnapshot words).Shaped w := by
  simp [Snapshot.Shaped, derivedSnapshot, hw]

/-- Adjusted words all have the residue they are adjusted to (R143). -/
theorem umod_of_mem_map_adjust {m c : Word} (hc : c.toNat < m.toNat) (hm : m.toNat ∣ 2 ^ 64)
    (ws : List Word) : ∀ v ∈ ws.map (adjust m c), v % m = c := by
  intro v hv
  obtain ⟨w, -, rfl⟩ := List.mem_map.1 hv
  exact adjust_umod w hc hm

/-- R29 at construction: R143's adjustments give the four parities. -/
theorem derivedSnapshot_parity (words : Nat → List Word) : (derivedSnapshot words).Parity :=
  ⟨umod_of_mem_map_adjust (by decide) (by decide) _, umod_of_mem_map_adjust (by decide) (by decide) _,
    umod_of_mem_map_adjust (by decide) (by decide) _,
    umod_of_mem_map_adjust (by decide) (by decide) _⟩

/-- R140, R144: the six derived arrays, the adjusted ones in closed form. -/
theorem derivedSnapshot_arrays (words : Nat → List Word) :
    (derivedSnapshot words).multX = words 2 ∧
      (derivedSnapshot words).multA = (words 4).map (fun v => (v &&& 0xFFFFFFFFFFFFFFFC) + 1) ∧
      (derivedSnapshot words).multB = (words 6).map (fun v => v ||| 1) ∧
      (derivedSnapshot words).xorX = words 8 ∧
      (derivedSnapshot words).xorA = (words 10).map (fun v => v &&& 0xFFFFFFFFFFFFFFFE) ∧
      (derivedSnapshot words).xorB = (words 12).map (fun v => v ||| 1) :=
  ⟨rfl, List.map_congr_left fun v _ => adjust_four_one_eq v,
    List.map_congr_left fun v _ => adjust_two_one_eq v, rfl,
    List.map_congr_left fun v _ => adjust_two_zero_eq v,
    List.map_congr_left fun v _ => adjust_two_one_eq v⟩

/-- A buffer of whole blocks holds the bytes of its ring, in address order (R53). -/
theorem Memory.Ring.readByte_eq_ringBytes {n : Nat} {m : Memory} {ring : List Block}
    (h : Memory.Ring n m ring) (hn : n % 32 = 0) {a : Nat} (ha : a < n) :
    Machine.readByte m a = (ringBytes ring)[a]? := by
  have hi : a / 32 < ring.length := by rw [h.1]; unfold blockCount; omega
  have ht : a % 32 < 32 := Nat.mod_lt _ (by omega)
  have hget := getElem?_flatMap_of_length (unpackBytes 32) (fun b => unpackBytes_length b) ring
    (a / 32) (a % 32) ht
  have hbyte := h.readByte hi ht
  rw [Nat.div_add_mod] at hget hbyte
  rw [hbyte, ringBytes, hget, List.getElem?_eq_getElem hi]
  simp [unpackBytes, ht]

/-- Settles O28: the state is `constructed`, whose adjusted arrays have R144's closed forms and whose
buffer is the ring after twelve rounds. -/
theorem constructLeavesTheDerivedState : Obligations.ConstructLeavesTheDerivedState := by
  intro s n seed hl hs h0 hmod hle p ring words
  have hz : legalSize Config.params.nMax n.toNat = true := legalSize_iff.2 ⟨h0, hmod, hle⟩
  obtain ⟨m, hexec, hring, -, hframe⟩ := exec_construct_of_legal hl hs hz
  obtain ⟨hmultX, hmultA, hmultB, hxorX, hxorA, hxorB⟩ := derivedSnapshot_arrays
    (wordsAfter Config.params (absorbedRing Config.params n.toNat seed))
  refine ⟨_, hexec, rfl, toNat_setWidth_of_legal hz, hmultX, hmultA, hmultB, hxorX, hxorA, hxorB,
    rfl, rfl, rfl, fun a ha => hring.readByte_eq_ringBytes hmod ha, hframe, rfl, ?_⟩
  rw [respond_respOut, constructed_life, show statusFlit .ok .ready = 0x100 by decide]
  rfl

end Sys2Proof.Machine
end

