-- ==== Sys2Proof/Proofs/State.lean ====
section
/-! PROOF. The state of the block (10_state.md): what a command and a step can do to it, said once, then
the invariants and the noninterference facts that follow. -/

namespace Sys2Proof.Machine

/-! ## What a command can do -/

/-- What command `i` can leave of state `s` (R31): its response alone, or one of four writes. -/
inductive CommandEffect (s : State) : Instr → State → Prop
  /-- An error, a readout or GET_STATUS: nothing but the response. -/
  | answered {i : Instr} (c : Code) (payload : List Word) : CommandEffect s i (respond c payload s)
  /-- A CONSTRUCT that succeeds (R39). -/
  | constructed {n : Word} {seed : List Byte} {m : Memory} (hlife : s.life = .uninit)
      (hseed : seed ≠ []) (hsize : legalSize Config.params.nMax n.toNat = true)
      (haddr : s.buf = [] → m.map Prod.fst = List.range n.toNat) :
      CommandEffect s (.construct n seed) (respond .ok [] (constructed Config.params n seed m s))
  /-- An extraction: `k` EmitOne steps on the current snapshot (R160, R180). -/
  | drawn {i : Instr} {k : Nat} {words payload : List Word} {c : Snapshot} (hlife : s.life = .ready)
      (hemit : emitWords (wordCount s.cfgN.toNat) k s.cur = .ok (words, c)) :
      CommandEffect s i (respond .ok payload { s with cur := c })
  /-- R190. -/
  | checkpointed (hlife : s.life = .ready) :
      CommandEffect s .checkpoint (respond .ok [] { s with prev := s.cur })
  /-- R192. -/
  | restored (hlife : s.life = .ready) :
      CommandEffect s .restore (respond .ok [] { s with cur := s.prev })

theorem extractWith_effect {render : Word → Word} {amount : Word} {i : Instr} {s t : State}
    (h : extractWith render amount s = .next t) : CommandEffect s i t := by
  rcases extractWith_eq_next.1 h with ⟨-, rfl⟩ | ⟨-, -, rfl⟩ | ⟨hl, -, vs, c, hemit, rfl⟩
  · exact .answered _ _
  · exact .answered _ _
  · exact .drawn hl hemit

theorem execConstruct_effect {n : Word} {seed : List Byte} {s t : State}
    (h : execConstruct n seed s = .next t) : CommandEffect s (.construct n seed) t := by
  rcases constructWith_eq_next.1 h with ⟨-, rfl⟩ | ⟨-, -, rfl⟩ | ⟨-, -, -, rfl⟩ | ⟨hl, hs, hz, -⟩
  · exact .answered _ _
  · exact .answered _ _
  · exact .answered _ _
  · obtain ⟨m, hexec, -, haddr, -⟩ := exec_construct_of_legal hl hs hz
    cases h.symm.trans hexec
    exact .constructed hl hs hz haddr

/-- Every command that answers has one of the effects. -/
theorem exec_effect {i : Instr} {s t : State} (h : exec i s = .next t) : CommandEffect s i t := by
  cases i with
  | construct n seed => exact execConstruct_effect h
  | extractU64 amount => exact extractWith_effect h
  | extractF64 amount => exact extractWith_effect h
  | checkpoint =>
    rcases execCheckpoint_eq_next.1 h with ⟨-, rfl⟩ | ⟨hl, rfl⟩
    · exact .answered _ _
    · exact .checkpointed hl
  | restore =>
    rcases execRestore_eq_next.1 h with ⟨-, rfl⟩ | ⟨hl, rfl⟩
    · exact .answered _ _
    · exact .restored hl
  | readState =>
    rcases execReadState_eq_next.1 h with ⟨-, rfl⟩ | ⟨-, payload, -, rfl⟩
    · exact .answered _ _
    · exact .answered _ _
  | getStatus =>
    rw [execGetStatus_eq_next.1 h]
    exact .answered _ _

namespace CommandEffect
variable {i : Instr} {s t : State}

/-- In READY a command keeps the lifecycle, the buffer and its size (R25, R31). -/
theorem of_ready (h : CommandEffect s i t) (hl : s.life = .ready) :
    t.life = .ready ∧ t.buf = s.buf ∧ t.cfgN = s.cfgN := by
  cases h with
  | answered c payload => exact ⟨hl, rfl, rfl⟩
  | constructed hlife => rw [hl] at hlife; cases hlife
  | drawn => exact ⟨hl, rfl, rfl⟩
  | checkpointed => exact ⟨hl, rfl, rfl⟩
  | restored => exact ⟨hl, rfl, rfl⟩

/-- Only a CONSTRUCT of a nonempty seed and a legal size enters READY (R20). -/
theorem construct_of_enters_ready (h : CommandEffect s i t) (hs : s.life = .uninit)
    (ht : t.life = .ready) :
    ∃ n seed, i = .construct n seed ∧ seed ≠ [] ∧ legalSize Config.params.nMax n.toNat = true := by
  cases h with
  | answered c payload => rw [respond_life, hs] at ht; cases ht
  | @constructed n seed m _ hseed hsize => exact ⟨n, seed, rfl, hseed, hsize⟩
  | drawn hl => rw [hs] at hl; cases hl
  | checkpointed hl => rw [hs] at hl; cases hl
  | restored hl => rw [hs] at hl; cases hl

/-- Only CHECKPOINT and CONSTRUCT write `prev` (R28, R31, R32). -/
theorem prev_eq_or (h : CommandEffect s i t) :
    t.prev = s.prev ∨ i = .checkpoint ∨ ∃ n seed, i = .construct n seed := by
  cases h with
  | answered c payload => exact .inl rfl
  | constructed => exact .inr (.inr ⟨_, _, rfl⟩)
  | drawn => exact .inl rfl
  | checkpointed => exact .inr (.inl rfl)
  | restored => exact .inl rfl

end CommandEffect

/-! ## What a step can do -/

/-- What one step can leave of state `s`, by what stands first on its command port (R61, R272, R279). -/
inductive StepEffect (s : State) : State → Prop
  | idle : StepEffect s s
  | reset {rest : List PortEvent} (hport : receive s.cmdIn = .reset rest) :
      StepEffect s (resetBlock rest s)
  /-- A reset during a command: `u` is the state it would have left, of which only flits remain. -/
  | aborted {flits : List Word} {k : Nat} {later : List PortEvent} (u : State)
      (hport : receive s.cmdIn = .frame flits (.abort k :: later)) : StepEffect s (resetBlock later u)
  /-- A frame that is no command (R78). -/
  | malformed (rest : List PortEvent) :
      StepEffect s (respond .invalidArgument [] { s with cmdIn := rest })
  | command {flits : List Word} {rest : List PortEvent} {i : Instr} {t : State}
      (hport : receive s.cmdIn = .frame flits rest) (hdecode : decodeFrame flits = .ok i)
      (heffect : CommandEffect { s with cmdIn := rest } i t) : StepEffect s t

theorem step_effect {s t : State} (h : step s = .next t) : StepEffect s t := by
  rcases step_eq_next.1 h with ⟨-, rfl⟩ | ⟨rest, hport, rfl⟩ |
    ⟨flits, rest, u, hport, hrun, ⟨k, later, rfl, rfl⟩ | ⟨-, rfl⟩⟩
  · exact .idle
  · exact .reset hport
  · exact .aborted _ hport
  · rcases runFrame_eq_next.1 hrun with ⟨i, hdecode, hexec⟩ | ⟨e, -, rfl⟩
    · exact .command hport hdecode (exec_effect hexec)
    · exact .malformed rest

/-- A property of the block that ignores its ports, that reset has and every command keeps, is kept by
every step. -/
theorem step_preserves {P : State → Prop}
    (hports : ∀ s events sent, P s → P { s with cmdIn := events, respOut := sent })
    (hreset : P State.reset) (hcommand : ∀ s i t, CommandEffect s i t → P s → P t)
    {s t : State} (h : step s = .next t) (hs : P s) : P t := by
  cases step_effect h with
  | idle => exact hs
  | reset => exact hports _ _ _ hreset
  | aborted u => exact hports _ _ _ hreset
  | malformed rest => exact hports s _ _ hs
  | command _ _ heffect => exact hcommand _ _ _ heffect (hports s _ _ hs)

/-- Settles O52: by cases on what the step did. -/
theorem lifecycleChangesOnlyByConstructAndReset :
    Obligations.LifecycleChangesOnlyByConstructAndReset := by
  intro s t h
  constructor
  · intro hs ht
    cases step_effect h with
    | idle => rw [hs] at ht; cases ht
    | reset hport => exact .inl ⟨_, hport⟩
    | aborted u hport => exact .inr ⟨_, _, _, hport⟩
    | malformed rest => rw [respond_life, hs] at ht; cases ht
    | command _ _ heffect => rw [(heffect.of_ready hs).1] at ht; cases ht
  · intro hs ht
    cases step_effect h with
    | idle => rw [hs] at ht; cases ht
    | reset => cases ht
    | aborted u => cases ht
    | malformed rest => rw [respond_life, hs] at ht; cases ht
    | command hport hdecode heffect =>
      obtain ⟨n, seed, rfl, hseed, hsize⟩ := heffect.construct_of_enters_ready hs ht
      exact ⟨_, _, n, seed, hport, hdecode, hseed, legalSize_iff.1 hsize⟩

/-- Settles O53: a step that stays READY is no reset, and in READY no command writes the buffer. -/
theorem bufferIsFixedWhileReady : Obligations.BufferIsFixedWhileReady := by
  intro s t h hs ht
  cases step_effect h with
  | idle => exact ⟨rfl, rfl⟩
  | reset => cases ht
  | aborted u => cases ht
  | malformed rest => exact ⟨rfl, rfl⟩
  | command _ _ heffect => exact (heffect.of_ready hs).2

/-! ## Parity (R29) -/

/-- EmitOne leaves the four arrays with a parity alone, whatever the number of lanes. -/
theorem emitOne_parity {w : Nat} {c c' : Snapshot} {v : Word} (h : emitOne w c = .ok (v, c'))
    (hc : c.Parity) : c'.Parity := by
  obtain ⟨_, _, _, _, -, -, -, -, -, ⟨-, rfl⟩ | ⟨-, hadvance⟩⟩ := emitOne_eq_ok.1 h
  · exact hc
  · obtain ⟨_, _, _, -, -, -, rfl⟩ := xorAdvance_eq_ok.1 hadvance
    exact hc

theorem emitWords_parity {w k : Nat} {c c' : Snapshot} {vs : List Word}
    (h : emitWords w k c = .ok (vs, c')) (hc : c.Parity) : c'.Parity := by
  induction k generalizing c vs with
  | zero => cases h; exact hc
  | succ k ih =>
    obtain ⟨_, c1, _, hfirst, hrest, -⟩ := emitWords_succ_eq_ok.1 h
    exact ih hrest (emitOne_parity hfirst hc)

/-- The property O51 is about: while READY, both snapshots have their parity. -/
def State.ReadyParity (s : State) : Prop := s.life = .ready → s.cur.Parity ∧ s.prev.Parity

theorem CommandEffect.readyParity {i : Instr} {s t : State} (h : CommandEffect s i t)
    (hs : s.ReadyParity) : t.ReadyParity := by
  cases h with
  | answered c payload => exact hs
  | constructed => exact fun _ => ⟨derivedSnapshot_parity _, derivedSnapshot_parity _⟩
  | drawn hl hemit =>
    obtain ⟨hcur, hprev⟩ := hs hl
    exact fun _ => ⟨emitWords_parity hemit hcur, hprev⟩
  | checkpointed hl =>
    obtain ⟨hcur, -⟩ := hs hl
    exact fun _ => ⟨hcur, hcur⟩
  | restored hl =>
    obtain ⟨-, hprev⟩ := hs hl
    exact fun _ => ⟨hprev, hprev⟩

theorem reset_readyParity : State.reset.ReadyParity := nofun

/-- Settles O51. -/
theorem parityHoldsWhileReady : Obligations.ParityHoldsWhileReady := by
  refine ⟨reset_readyParity, fun s t hs h => ?_⟩
  exact step_preserves (P := State.ReadyParity) (fun _ _ _ hs => hs) reset_readyParity
    (fun _ _ _ heffect => heffect.readyParity) h hs

/-! ## The invariant -/

/-- Settles O48: UNINIT, with no byte and no element. -/
theorem resetMeetsTheInvariant : Obligations.ResetMeetsTheInvariant where
  buf_addresses := rfl
  cur_shaped := ⟨rfl, rfl, rfl, rfl, rfl, rfl⟩
  prev_shaped := ⟨rfl, rfl, rfl, rfl, rfl, rfl⟩
  cur_parity := ⟨nofun, nofun, nofun, nofun⟩
  prev_parity := ⟨nofun, nofun, nofun, nofun⟩
  uninit_size := fun _ => rfl
  ready_size := nofun
  ready_cur_cursors := nofun
  ready_prev_cursors := nofun

/-- The invariant ignores the ports. -/
theorem State.Inv.withPorts {s : State} (h : s.Inv) (events : List PortEvent) (sent : List Flit) :
    State.Inv { s with cmdIn := events, respOut := sent } :=
  { h with }

/-- In UNINIT the invariant leaves no byte listed (log 7). -/
theorem State.Inv.buf_of_uninit {s : State} (h : s.Inv) (hl : s.life = .uninit) : s.buf = [] := by
  have haddr := h.buf_addresses
  rw [h.uninit_size hl] at haddr
  exact List.map_eq_nil_iff.1 haddr

/-- A successful CONSTRUCT establishes the invariant (R39). -/
theorem constructed_inv {s : State} {n : Word} {seed : List Byte} {m : Memory}
    (hsize : legalSize Config.params.nMax n.toNat = true)
    (haddr : m.map Prod.fst = List.range n.toNat) :
    (constructed Config.params n seed m s).Inv := by
  have hcfg := toNat_setWidth_of_legal hsize
  obtain ⟨hne, hmod, -⟩ := legalSize_iff.1 hsize
  have hpos : 0 < wordCount n.toNat := by unfold wordCount; omega
  have hshaped := derivedSnapshot_shaped (wordsAfter_length Config.params seed hmod)
  constructor <;> simp only [constructed_life, constructed_cfgN, constructed_buf, constructed_cur,
    constructed_prev, hcfg]
  case buf_addresses => exact haddr
  case cur_shaped => exact hshaped
  case prev_shaped => exact hshaped
  case cur_parity => exact derivedSnapshot_parity _
  case prev_parity => exact derivedSnapshot_parity _
  case uninit_size => exact nofun
  case ready_size => exact fun _ => hsize
  case ready_cur_cursors => exact fun _ => ⟨hpos, hpos⟩
  case ready_prev_cursors => exact fun _ => ⟨hpos, hpos⟩

/-- In READY an extraction keeps the invariant: EmitOne keeps shape, parity and cursors in range. -/
theorem State.Inv.withDrawn {s : State} (h : s.Inv) (hl : s.life = .ready) {k : Nat}
    {words : List Word} {c : Snapshot}
    (hemit : emitWords (wordCount s.cfgN.toNat) k s.cur = .ok (words, c)) :
    State.Inv { s with cur := c } := by
  obtain ⟨hpos, -⟩ := h.ready_cur_cursors hl
  obtain ⟨-, hshaped, -, -, -, -, hcursors⟩ := emitWords_keeps (by omega) hemit
  exact { h with
    cur_shaped := hshaped h.cur_shaped
    cur_parity := emitWords_parity hemit h.cur_parity
    ready_cur_cursors := fun _ => hcursors (h.ready_cur_cursors hl) }

theorem CommandEffect.inv {i : Instr} {s t : State} (h : CommandEffect s i t) (hs : s.Inv) :
    t.Inv := by
  cases h with
  | answered c payload => exact hs.withPorts _ _
  | constructed hl _ hsize haddr =>
    exact (constructed_inv hsize (haddr (hs.buf_of_uninit hl))).withPorts _ _
  | drawn hl hemit => exact (hs.withDrawn hl hemit).withPorts _ _
  | checkpointed =>
    exact { hs with
      prev_shaped := hs.cur_shaped
      prev_parity := hs.cur_parity
      ready_prev_cursors := hs.ready_cur_cursors }
  | restored =>
    exact { hs with
      cur_shaped := hs.prev_shaped
      cur_parity := hs.prev_parity
      ready_cur_cursors := hs.ready_prev_cursors }

/-- Settles O49. -/
theorem stepKeepsTheInvariant : Obligations.StepKeepsTheInvariant := by
  intro s t hs h
  exact step_preserves (P := State.Inv) (fun _ events sent hs => hs.withPorts events sent)
    resetMeetsTheInvariant (fun _ _ _ heffect => heffect.inv) h hs

/-! ## What no command observes -/

theorem extractWith_withPrev {render : Word → Word} {amount : Word} {s t : State}
    (h : extractWith render amount s = .next t) (q : Snapshot) :
    extractWith render amount { s with prev := q } = .next { t with prev := q } := by
  rw [extractWith_eq_next] at h ⊢
  rcases h with ⟨hl, rfl⟩ | ⟨hl, hneg, rfl⟩ | ⟨hl, hnn, words, c, hemit, rfl⟩
  · exact .inl ⟨hl, rfl⟩
  · exact .inr (.inl ⟨hl, hneg, rfl⟩)
  · exact .inr (.inr ⟨hl, hnn, words, c, hemit, rfl⟩)

/-- CONSTRUCT overwrites `prev` where it succeeds and leaves it where it fails. -/
theorem execConstruct_withPrev {n : Word} {seed : List Byte} {s t : State}
    (h : execConstruct n seed s = .next t) (q : Snapshot) :
    ∃ r, execConstruct n seed { s with prev := q } = .next { t with prev := r } := by
  rcases constructWith_eq_next.1 h with ⟨hl, rfl⟩ | ⟨hl, hs, rfl⟩ | ⟨hl, hs, hz, rfl⟩ |
    ⟨hl, hs, hz, u, hinit, rfl⟩
  · exact ⟨q, constructWith_eq_next.2 (.inl ⟨hl, rfl⟩)⟩
  · exact ⟨q, constructWith_eq_next.2 (.inr (.inl ⟨hl, hs, rfl⟩))⟩
  · exact ⟨q, constructWith_eq_next.2 (.inr (.inr (.inl ⟨hl, hs, hz, rfl⟩)))⟩
  · exact ⟨u.prev, constructWith_eq_next.2 (.inr (.inr (.inr ⟨hl, hs, hz, u, hinit, rfl⟩)))⟩

/-- With another `prev`, every command but RESTORE leaves the same state, `prev` apart (R32). -/
theorem exec_withPrev {i : Instr} {s t : State} (h : exec i s = .next t) (hi : i ≠ .restore)
    (q : Snapshot) : ∃ r, exec i { s with prev := q } = .next { t with prev := r } := by
  cases i with
  | construct n seed => exact execConstruct_withPrev h q
  | extractU64 amount => exact ⟨q, extractWith_withPrev h q⟩
  | extractF64 amount => exact ⟨q, extractWith_withPrev h q⟩
  | checkpoint =>
    rcases execCheckpoint_eq_next.1 h with ⟨hl, rfl⟩ | ⟨hl, rfl⟩
    · exact ⟨q, execCheckpoint_eq_next.2 (.inl ⟨hl, rfl⟩)⟩
    · exact ⟨s.cur, execCheckpoint_eq_next.2 (.inr ⟨hl, rfl⟩)⟩
  | restore => exact absurd rfl hi
  | readState =>
    rcases execReadState_eq_next.1 h with ⟨hl, rfl⟩ | ⟨hl, payload, hpayload, rfl⟩
    · exact ⟨q, execReadState_eq_next.2 (.inl ⟨hl, rfl⟩)⟩
    · exact ⟨q, execReadState_eq_next.2 (.inr ⟨hl, payload, hpayload, rfl⟩)⟩
  | getStatus =>
    rw [execGetStatus_eq_next.1 h]
    exact ⟨q, execGetStatus_eq_next.2 rfl⟩

/-- Settles O54. -/
theorem prevIsTouchedOnlyByCopies : Obligations.PrevIsTouchedOnlyByCopies := by
  intro i s t h
  refine ⟨(exec_effect h).prev_eq_or, fun hi q => ?_⟩
  obtain ⟨r, hr⟩ := exec_withPrev h hi q
  exact ⟨_, hr, rfl, rfl, rfl, rfl, rfl⟩

/-- In UNINIT a command either is a CONSTRUCT that succeeds, or gives one response that depends on the
size register alone (R38, R243). -/
theorem exec_of_uninit (i : Instr) (size : BitVec 32) :
    (∃ n seed, i = .construct n seed ∧ seed ≠ [] ∧
      legalSize Config.params.nMax n.toNat = true) ∨
    ∃ c payload, ∀ s : State, s.life = .uninit → s.cfgN = size →
      exec i s = .next (respond c payload s) := by
  have not_ready {s : State} (hl : s.life = .uninit) : s.life ≠ .ready := by rw [hl]; nofun
  cases i with
  | construct n seed =>
    by_cases hs : seed = []
    · exact .inr ⟨.invalidSeed, [], fun s hl _ =>
        constructWith_eq_next.2 (.inr (.inl ⟨hl, hs, rfl⟩))⟩
    · cases hz : legalSize Config.params.nMax n.toNat with
      | true => exact .inl ⟨n, seed, rfl, hs, hz⟩
      | false =>
        exact .inr ⟨.invalidConfig, [], fun s hl _ =>
          constructWith_eq_next.2 (.inr (.inr (.inl ⟨hl, hs, hz, rfl⟩)))⟩
  | extractU64 amount =>
    exact .inr ⟨.invalidState, [], fun s hl _ => requireLife_of_ne (not_ready hl) _⟩
  | extractF64 amount =>
    exact .inr ⟨.invalidState, [], fun s hl _ => requireLife_of_ne (not_ready hl) _⟩
  | checkpoint => exact .inr ⟨.invalidState, [], fun s hl _ => requireLife_of_ne (not_ready hl) _⟩
  | restore => exact .inr ⟨.invalidState, [], fun s hl _ => requireLife_of_ne (not_ready hl) _⟩
  | readState => exact .inr ⟨.invalidState, [], fun s hl _ => requireLife_of_ne (not_ready hl) _⟩
  | getStatus =>
    exact .inr ⟨.ok, _, fun s hl hsize =>
      execGetStatus_eq_next.2 (by rw [hl, hsize])⟩

/-- Settles O56: a response of an UNINIT block shows neither buffer nor bank, and a successful CONSTRUCT
replaces both by what it derives from its operands. -/
theorem unspecifiedValuesAreUnobservable : Obligations.UnspecifiedValuesAreUnobservable := by
  intro i s buf cur prev hl
  rcases exec_of_uninit i s.cfgN with ⟨n, seed, rfl, hs, hz⟩ | ⟨c, payload, hanswer⟩
  · obtain ⟨m, hexec, hring, -⟩ := exec_construct_of_legal hl hs hz
    obtain ⟨m', hexec', hring', -⟩ :=
      exec_construct_of_legal (s := { s with buf := buf, cur := cur, prev := prev }) hl hs hz
    obtain ⟨-, hmod, -⟩ := legalSize_iff.1 hz
    refine ⟨_, _, hexec, hexec', rfl, rfl, rfl, rfl, fun _ => ⟨rfl, rfl, fun a ha => ?_⟩⟩
    rw [respond_cfgN, constructed_cfgN, toNat_setWidth_of_legal hz] at ha
    exact (hring'.readByte_eq_ringBytes hmod ha).trans (hring.readByte_eq_ringBytes hmod ha).symm
  · refine ⟨_, _, hanswer s hl rfl, hanswer _ hl rfl, rfl, rfl, rfl, rfl, fun hready => ?_⟩
    rw [respond_life, hl] at hready
    cases hready

end Sys2Proof.Machine
end

/-! PROOF. The views of the state buffer (20_memory.md R52, R54): a word as the weighted sum of its bytes,
and a block write seen through the word view. Then how a step runs a decoded command (R61, R78), and that
no command observes the two ports (R58, R61). -/

namespace Sys2Proof

/-! ## Bytes as a number -/

/-- A string no longer than the value packs without loss. -/
theorem toNat_packBytes {w : Nat} {bs : List Byte} (hw : 8 * bs.length ≤ w) :
    (packBytes w bs).toNat = bytesToNat bs := by
  have hlt : bytesToNat bs < 2 ^ w := calc
    bytesToNat bs < 256 ^ bs.length := bytesToNat_lt bs
    _ = 2 ^ (8 * bs.length) := (pow_mul 2 8 bs.length).symm
    _ ≤ 2 ^ w := Nat.pow_le_pow_right (by omega) hw
  rw [packBytes, BitVec.toNat_ofNat, Nat.mod_eq_of_lt hlt]

/-- Byte `t` has the weight `2 ^ (8 t)`. -/
theorem bytesToNat_map_range (f : Nat → Byte) (k : Nat) :
    bytesToNat ((List.range k).map f) =
      ((List.range k).map fun t => (f t).toNat * 2 ^ (8 * t)).sum := by
  induction k generalizing f with
  | zero => rfl
  | succ k ih =>
    have hshift (t : Nat) :
        (f (t + 1)).toNat * 2 ^ (8 * (t + 1)) = 256 * ((f (t + 1)).toNat * 2 ^ (8 * t)) := by
      ring
    rw [List.range_succ_eq_map]
    simp only [List.map_cons, List.map_map, List.sum_cons, bytesToNat, Function.comp_def,
      ih fun t => f (t + 1), Nat.succ_eq_add_one, hshift, List.sum_map_mul_left]
    omega

/-- In reverse order byte `t` of `k` has the weight `2 ^ (8 (k - 1 - t))`. -/
theorem bytesToNat_reverse_map_range (f : Nat → Byte) (k : Nat) :
    bytesToNat ((List.range k).map f).reverse =
      ((List.range k).map fun t => (f t).toNat * 2 ^ (8 * (k - 1 - t))).sum := by
  induction k with
  | zero => rfl
  | succ k ih =>
    have hshift : ∀ t ∈ List.range k,
        (f t).toNat * 2 ^ (8 * (k - t)) = 256 * ((f t).toNat * 2 ^ (8 * (k - 1 - t))) := by
      intro t ht
      have hlt : t < k := List.mem_range.1 ht
      rw [show k - t = k - 1 - t + 1 by omega]
      ring
    rw [List.range_succ]
    simp only [List.map_append, List.map_cons, List.map_nil, List.reverse_append,
      List.reverse_singleton, List.singleton_append, bytesToNat, ih, List.sum_append,
      List.sum_singleton, Nat.add_sub_cancel, List.map_congr_left hshift, List.sum_map_mul_left,
      Nat.sub_self, Nat.mul_zero, pow_zero, Nat.mul_one]
    omega

end Sys2Proof

namespace Sys2Proof.Machine

/-! ## The word view (R52) -/

theorem toNat_composeWord_le (f : Nat → Byte) :
    (composeWord .le ((List.range 8).map f)).toNat =
      ((List.range 8).map fun t => (f t).toNat * 2 ^ (8 * t)).sum :=
  (toNat_packBytes (by simp)).trans (bytesToNat_map_range f 8)

theorem toNat_composeWord_be (f : Nat → Byte) :
    (composeWord .be ((List.range 8).map f)).toNat =
      ((List.range 8).map fun t => (f t).toNat * 2 ^ (8 * (7 - t))).sum :=
  (toNat_packBytes (by simp)).trans (bytesToNat_reverse_map_range f 8)

/-- A read inside the buffer, from the bytes it holds there. -/
theorem memRead_of_bytes {n : Nat} {m : Memory} {a k : Nat} {f : Nat → Byte} (hn : a + k ≤ n)
    (hf : ∀ t < k, readByte m (a + t) = some (f t)) :
    memRead n m a k = .ok ((List.range k).map f) := by
  refine memRead_eq_ok.2 ⟨hn, by simp, fun t ht => ?_⟩
  rw [hf t ht]
  simp [ht]

/-- A word inside the buffer, from the eight bytes it is made of. -/
theorem readWord_of_bytes (o : WordOrder) {n : Nat} {m : Memory} {k : Nat} {f : Nat → Byte}
    (hn : 8 * k + 8 ≤ n) (hf : ∀ t < 8, readByte m (8 * k + t) = some (f t)) :
    readWord o n m k = .ok (composeWord o ((List.range 8).map f)) := by
  rw [readWord, memRead_of_bytes hn hf]
  rfl

/-- Settles O17: the word read is the one its eight bytes compose, whose value each order gives. -/
theorem wordViewComposesEightBytes : Obligations.WordViewComposesEightBytes := by
  intro n m k f hn hf
  exact ⟨⟨_, readWord_of_bytes .le hn hf, toNat_composeWord_le f⟩,
    ⟨_, readWord_of_bytes .be hn hf, toNat_composeWord_be f⟩⟩

/-! ## A block write seen through the word view (R54) -/

/-- Memories that hold the same at the addresses read answer alike, the faults too. -/
theorem readBytes_congr {m m' : Memory} {a k : Nat}
    (h : ∀ t < k, readByte m' (a + t) = readByte m (a + t)) : readBytes m' a k = readBytes m a k := by
  induction k generalizing a with
  | zero => rfl
  | succ k ih =>
    have hfirst : readByte m' a = readByte m a := h 0 (by omega)
    have hrest : readBytes m' (a + 1) k = readBytes m (a + 1) k := by
      refine ih fun t ht => ?_
      rw [Nat.add_right_comm]
      exact h (t + 1) (by omega)
    simp only [readBytes, hfirst, hrest]

/-- A word depends on its own eight bytes alone. -/
theorem readWord_congr (o : WordOrder) (n : Nat) {m m' : Memory} {k : Nat}
    (h : ∀ t < 8, readByte m' (8 * k + t) = readByte m (8 * k + t)) :
    readWord o n m' k = readWord o n m k := by
  simp only [readWord, memRead, readBytes_congr h]

/-- Byte `t` of a block just written is byte `t` of the value. -/
theorem readByte_writeBlock_same {n : Nat} {m m' : Memory} {i : Nat} {b : Block}
    (h : writeBlock n m i b = .ok m') {t : Nat} (ht : t < 32) :
    readByte m' (32 * i + t) = some (byteOf b t) := by
  obtain ⟨-, hm'⟩ := writeBlock_eq_ok.1 h
  have hin : 32 * i ≤ 32 * i + t ∧ 32 * i + t < 32 * i + (unpackBytes 32 b).length := by
    rw [unpackBytes_length]
    omega
  rw [hm', readByte_writeBytes, if_pos hin, Nat.add_sub_cancel_left]
  simp [unpackBytes, ht]

/-- A block write leaves every byte outside the block. -/
theorem readByte_writeBlock_of_outside {n : Nat} {m m' : Memory} {i : Nat} {b : Block}
    (h : writeBlock n m i b = .ok m') {a : Nat} (ha : a < 32 * i ∨ 32 * i + 32 ≤ a) :
    readByte m' a = readByte m a := by
  obtain ⟨-, hm'⟩ := writeBlock_eq_ok.1 h
  rw [hm']
  exact readByte_writeBytes_of_outside m (by rwa [unpackBytes_length])

/-- Settles O18: word `4i + j` lies in the block at byte `8j`, and a word `k` with `k / 4 ≠ i` lies wholly
outside the block. -/
theorem blockWriteChangesItsFourWords : Obligations.BlockWriteChangesItsFourWords := by
  intro o n m m' i b h
  obtain ⟨hn, -⟩ := writeBlock_eq_ok.1 h
  constructor
  · intro j hj
    refine readWord_of_bytes o (f := fun t => byteOf b (8 * j + t)) (by omega) fun t ht => ?_
    rw [show 8 * (4 * i + j) + t = 32 * i + (8 * j + t) by ring]
    exact readByte_writeBlock_same h (by omega)
  · intro k hk
    exact readWord_congr o n fun t ht => readByte_writeBlock_of_outside h (by omega)

/-! ## The step on a complete frame (R61, R78) -/

/-- A command that no reset hits ends as it ran (R272). -/
theorem settleFrame_of_no_abort {rest : List PortEvent} (h : ∀ k later, rest ≠ .abort k :: later)
    (before : List Flit) (r : Result) : settleFrame before rest r = r := by
  unfold settleFrame
  split
  · exact absurd rfl (h _ _)
  · rfl

/-- A complete frame that no reset hits is run, with the frame consumed. -/
theorem step_of_frame {s : State} {flits : List Word} {rest : List PortEvent}
    (hport : receive s.cmdIn = .frame flits rest) (h : ∀ k later, rest ≠ .abort k :: later) :
    step s = runFrame exec flits { s with cmdIn := rest } := by
  simp only [step, portStep, hport, settleFrame_of_no_abort h]

/-- A frame that decodes runs the command it decodes to. -/
theorem runFrame_of_decodeFrame {flits : List Word} {i : Instr} (h : decodeFrame flits = .ok i)
    (run : Instr → State → Result) (s : State) : runFrame run flits s = run i s := by
  simp only [runFrame, h]

/-- Settles O7. -/
theorem stepRunsTheDecodedCommand : Obligations.StepRunsTheDecodedCommand := by
  intro s flits rest i hport habort hdecode
  rw [step_of_frame hport habort, runFrame_of_decodeFrame hdecode]

/-! ## What a command makes of the ports (R58, R61) -/

/-- With other contents of the ports a command answers by the same change and the same new flits. -/
def IgnoresPorts (run : State → Result) : Prop :=
  ∀ (s t : State) (events : List PortEvent) (sent : List Flit), run s = .next t →
    run { s with cmdIn := events, respOut := sent } =
      .next { t with cmdIn := events, respOut := sent ++ newFlits s t }

/-- A response appends the same frame whatever the ports hold; `u` is `s` after the command's writes,
none of which is to the response port. -/
theorem respond_withPorts (c : Code) (payload : List Word) {s u : State}
    (hu : u.respOut = s.respOut) (events : List PortEvent) (sent : List Flit) :
    respond c payload { u with cmdIn := events, respOut := sent } =
      { respond c payload u with
        cmdIn := events
        respOut := sent ++ newFlits s (respond c payload u) } := by
  have hnew : newFlits s (respond c payload u) = frameOf (statusFlit c u.life :: payload) :=
    newFlits_of_append (by rw [respond_respOut, hu])
  rw [hnew]
  rfl

theorem extractWith_ignoresPorts (render : Word → Word) (amount : Word) :
    IgnoresPorts (extractWith render amount) := by
  intro s t events sent h
  rw [extractWith_eq_next] at h ⊢
  rcases h with ⟨hl, rfl⟩ | ⟨hl, hneg, rfl⟩ | ⟨hl, hnn, words, c, hemit, rfl⟩
  · exact .inl ⟨hl, (respond_withPorts _ _ rfl events sent).symm⟩
  · exact .inr (.inl ⟨hl, hneg, (respond_withPorts _ _ rfl events sent).symm⟩)
  · exact .inr (.inr ⟨hl, hnn, words, c, hemit, (respond_withPorts _ _ rfl events sent).symm⟩)

/-- Everything the body of CONSTRUCT can do (R100): absorb into the buffer, derive, become READY. -/
theorem initialise_eq_ok {p : Params} {n : Word} {seed : List Byte} {s u : State} :
    initialise p n seed s = .ok u ↔ ∃ absorbed c m,
      memWrite n.toNat s.buf 0 (absorb p.absorbVariant n.toNat seed) = .ok absorbed ∧
      derive p n.toNat absorbed = .ok (c, m) ∧
      u = { s with life := .ready, cfgN := n.setWidth 32, buf := m, cur := c, prev := c } := by
  simp only [initialise, bind, Except.bind, pure, Except.pure]
  cases memWrite n.toNat s.buf 0 (absorb p.absorbVariant n.toNat seed) with
  | error f => simp
  | ok absorbed =>
    cases hderive : derive p n.toNat absorbed with
    | error f => simp [hderive]
    | ok r => simp [hderive, Prod.ext_iff, @eq_comm State u]

theorem execConstruct_ignoresPorts (n : Word) (seed : List Byte) :
    IgnoresPorts (execConstruct n seed) := by
  intro s t events sent h
  rw [execConstruct, constructWith_eq_next] at h ⊢
  rcases h with ⟨hl, rfl⟩ | ⟨hl, hs, rfl⟩ | ⟨hl, hs, hz, rfl⟩ | ⟨hl, hs, hz, u, hinit, rfl⟩
  · exact .inl ⟨hl, (respond_withPorts _ _ rfl events sent).symm⟩
  · exact .inr (.inl ⟨hl, hs, (respond_withPorts _ _ rfl events sent).symm⟩)
  · exact .inr (.inr (.inl ⟨hl, hs, hz, (respond_withPorts _ _ rfl events sent).symm⟩))
  · obtain ⟨absorbed, c, m, habsorb, hderive, rfl⟩ := initialise_eq_ok.1 hinit
    exact .inr (.inr (.inr ⟨hl, hs, hz, _, initialise_eq_ok.2 ⟨absorbed, c, m, habsorb, hderive, rfl⟩,
      (respond_withPorts _ _ rfl events sent).symm⟩))

theorem execCheckpoint_ignoresPorts : IgnoresPorts execCheckpoint := by
  intro s t events sent h
  rw [execCheckpoint_eq_next] at h ⊢
  rcases h with ⟨hl, rfl⟩ | ⟨hl, rfl⟩
  · exact .inl ⟨hl, (respond_withPorts _ _ rfl events sent).symm⟩
  · exact .inr ⟨hl, (respond_withPorts _ _ rfl events sent).symm⟩

theorem execRestore_ignoresPorts : IgnoresPorts execRestore := by
  intro s t events sent h
  rw [execRestore_eq_next] at h ⊢
  rcases h with ⟨hl, rfl⟩ | ⟨hl, rfl⟩
  · exact .inl ⟨hl, (respond_withPorts _ _ rfl events sent).symm⟩
  · exact .inr ⟨hl, (respond_withPorts _ _ rfl events sent).symm⟩

theorem execReadState_ignoresPorts : IgnoresPorts execReadState := by
  intro s t events sent h
  rw [execReadState_eq_next] at h ⊢
  rcases h with ⟨hl, rfl⟩ | ⟨hl, payload, hpayload, rfl⟩
  · exact .inl ⟨hl, (respond_withPorts _ _ rfl events sent).symm⟩
  · exact .inr ⟨hl, payload, hpayload, (respond_withPorts _ _ rfl events sent).symm⟩

theorem execGetStatus_ignoresPorts : IgnoresPorts execGetStatus := by
  intro s t events sent h
  rw [execGetStatus_eq_next] at h ⊢
  subst h
  exact (respond_withPorts _ _ rfl events sent).symm

/-- Settles O55: command by command. -/
theorem commandsIgnoreThePorts : Obligations.CommandsIgnoreThePorts := by
  intro i
  change IgnoresPorts (exec i)
  cases i with
  | construct n seed => exact execConstruct_ignoresPorts n seed
  | extractU64 amount => exact extractWith_ignoresPorts id amount
  | extractF64 amount => exact extractWith_ignoresPorts f64Bits amount
  | checkpoint => exact execCheckpoint_ignoresPorts
  | restore => exact execRestore_ignoresPorts
  | readState => exact execReadState_ignoresPorts
  | getStatus => exact execGetStatus_ignoresPorts

end Sys2Proof.Machine

/-! PROOF. The command frames of 30_encoding.md: which frames decode to a command, and so that decoding
undoes encoding (R74, R75, R78), how a step answers a malformed frame (R79, R80), and the layout of a
response (R84, R85). -/

namespace Sys2Proof

/-! ## Which frames decode (R74 to R78) -/

/-- The operand flits that carry a command: for CONSTRUCT any seed flits whose first `L` bytes are the
seed (R75), for every other command the encoder's own (R76, R77). -/
def Instr.CarriedBy : Instr → List Word → Prop
  | .construct n seed, operands => ∃ l seedPart, operands = n :: l :: seedPart ∧
      seedPart.length = seedFlits l.toNat ∧ seed = seedOfFlits seedPart l.toNat
  | i, operands => operands = operandFlits i

theorem decodeConstruct_eq_ok {operands : List Word} {i : Instr} :
    decodeConstruct operands = .ok i ↔ ∃ n l seedPart, operands = n :: l :: seedPart ∧
      seedPart.length = seedFlits l.toNat ∧ i = .construct n (seedOfFlits seedPart l.toNat) := by
  unfold decodeConstruct
  split
  next n l seedPart =>
    split
    next hlen => simp [hlen, eq_comm]
    next hlen => simp [hlen]
  next hshort => simpa using fun n l seedPart h => absurd h (hshort n l seedPart)

theorem decodeAmount_eq_ok {mk : Word → Instr} {operands : List Word} {i : Instr} :
    decodeAmount mk operands = .ok i ↔ ∃ amount, operands = [amount] ∧ i = mk amount := by
  unfold decodeAmount
  split
  next amount => simp [eq_comm]
  next hne => simpa using fun amount h => absurd h (hne amount)

theorem decodeBare_eq_ok {i j : Instr} {operands : List Word} :
    decodeBare i operands = .ok j ↔ operands = [] ∧ j = i := by
  cases operands <;> simp [decodeBare, eq_comm]

/-- An OPCODE's operands decode to a command exactly if the OPCODE is the command's and the operands
carry it. -/
theorem decodeOperands_eq_ok {op : Nat} {operands : List Word} {i : Instr} :
    decodeOperands op operands = .ok i ↔ op = (opcode i).toNat ∧ i.CarriedBy operands := by
  constructor
  · intro h
    unfold decodeOperands at h
    split at h
    case h_1 =>
      obtain ⟨n, l, seedPart, rfl, hlen, rfl⟩ := decodeConstruct_eq_ok.1 h
      exact ⟨rfl, l, seedPart, rfl, hlen, rfl⟩
    case h_2 | h_3 =>
      obtain ⟨amount, rfl, rfl⟩ := decodeAmount_eq_ok.1 h
      exact ⟨rfl, rfl⟩
    case h_4 | h_5 | h_6 | h_7 =>
      obtain ⟨rfl, rfl⟩ := decodeBare_eq_ok.1 h
      exact ⟨rfl, rfl⟩
    case h_8 => cases h
  · rintro ⟨rfl, h⟩
    cases i with
    | construct n seed =>
      obtain ⟨l, seedPart, rfl, hlen, rfl⟩ := h
      exact decodeConstruct_eq_ok.2 ⟨n, l, seedPart, rfl, hlen, rfl⟩
    | extractU64 amount => exact decodeAmount_eq_ok.2 ⟨amount, h, rfl⟩
    | extractF64 amount => exact decodeAmount_eq_ok.2 ⟨amount, h, rfl⟩
    | checkpoint | restore | readState | getStatus => exact decodeBare_eq_ok.2 ⟨h, rfl⟩

theorem opcode_toNat_bounds (i : Instr) : 1 ≤ (opcode i).toNat ∧ (opcode i).toNat ≤ 7 := by
  cases i <;> simp [opcode]

/-- A frame decodes to a command exactly if its header is the command's OPCODE with RSVD = 0 and its
operands carry the command. -/
theorem decodeFrame_cons_eq_ok {header : Word} {operands : List Word} {i : Instr} :
    decodeFrame (header :: operands) = .ok i ↔
      header = (opcode i).setWidth 64 ∧ i.CarriedBy operands := by
  have hop := (opcode i).isLt
  have hheader : header = (opcode i).setWidth 64 ↔ header.toNat = (opcode i).toNat := by
    rw [← BitVec.toNat_inj, BitVec.toNat_setWidth, Nat.mod_eq_of_lt (by omega)]
  by_cases hlt : header.toNat < 256
  · rw [decodeFrame_of_lt hlt, decodeOperands_eq_ok, hheader]
  · rw [decodeFrame_of_ge hlt, hheader]
    simp [show header.toNat ≠ (opcode i).toNat by omega]

/-! ## Decoding undoes encoding -/

/-- `ceil(L / 8)` flits have room for `L` bytes. -/
theorem le_seedFlits (l : Nat) : l ≤ 8 * seedFlits l := by
  unfold seedFlits
  omega

/-- The encoder's operands carry the command: the one operand that could lose bits is `L`. -/
theorem carriedBy_operandFlits {i : Instr} (h : i.WellFormed) : i.CarriedBy (operandFlits i) := by
  cases i with
  | construct n seed =>
    have hL : (BitVec.ofNat 64 seed.length).toNat = seed.length := by
      rw [BitVec.toNat_ofNat, Nat.mod_eq_of_lt h]
    refine ⟨_, _, rfl, ?_, ?_⟩
    · rw [Laws.flitsOfSeed_length, hL]
    · rw [hL, seedOfFlits_flitsOfSeed _ _ (le_seedFlits _)]
  | extractU64 | extractF64 | checkpoint | restore | readState | getStatus => rfl

/-- Settles O1. -/
theorem decodeEncodeRoundTrip : Obligations.DecodeEncodeRoundTrip := fun _ h =>
  decodeFrame_cons_eq_ok.2 ⟨rfl, carriedBy_operandFlits h⟩

/-- The seed a frame carries has the length `L` of flit 2, so the operands are as many as the
encoder's. -/
theorem Instr.CarriedBy.wellFormed_and_length {i : Instr} {operands : List Word}
    (h : i.CarriedBy operands) : i.WellFormed ∧ operands.length = (operandFlits i).length := by
  cases i with
  | construct n seed =>
    obtain ⟨l, seedPart, rfl, hlen, rfl⟩ := h
    have hseed : (seedOfFlits seedPart l.toNat).length = l.toNat := seedOfFlits_length hlen
    refine ⟨?_, ?_⟩
    · rw [Instr.WellFormed, hseed]
      exact l.isLt
    · simp only [operandFlits, List.length_cons, Laws.flitsOfSeed_length, hseed, hlen]
  | extractU64 | extractF64 | checkpoint | restore | readState | getStatus =>
    exact ⟨trivial, congrArg List.length h⟩

theorem Instr.CarriedBy.eq_operandFlits {i : Instr} {operands : List Word}
    (h : i.CarriedBy operands) (hi : ∀ n seed, i ≠ .construct n seed) : operands = operandFlits i := by
  cases i with
  | construct n seed => exact absurd rfl (hi n seed)
  | extractU64 | extractF64 | checkpoint | restore | readState | getStatus => exact h

/-- Settles O2. -/
theorem decodedFramesHaveTheirFormat : Obligations.DecodedFramesHaveTheirFormat := by
  intro flits i h
  cases flits with
  | nil => cases h
  | cons header operands =>
    obtain ⟨rfl, hcarried⟩ := decodeFrame_cons_eq_ok.1 h
    obtain ⟨hwf, hlen⟩ := hcarried.wellFormed_and_length
    exact ⟨hwf, congrArg (· + 1) hlen, rfl, fun hi => congrArg _ (hcarried.eq_operandFlits hi)⟩

/-- Settles O6: each worked frame is its command's encoding, and what is encoded decodes back. -/
theorem workedFramesDecodeAndEncode : Obligations.WorkedFramesDecodeAndEncode := by
  have hconstruct : encode (.construct 32 [0x01]) = [0x01, 0x20, 0x01, 0x01] := by decide
  have hextract : encode (.extractU64 (-1)) = [0x02, 0xFFFFFFFFFFFFFFFF] := by decide
  refine ⟨?_, hconstruct, ?_, hextract⟩
  · rw [← hconstruct]
    exact decodeEncodeRoundTrip _ (by decide)
  · rw [← hextract]
    exact decodeEncodeRoundTrip _ trivial

/-! ## The seed bytes of CONSTRUCT (R75) -/

/-- Byte `j` of the seed is byte `j mod 8` of seed flit `j div 8`; past `L` there is none. -/
theorem getElem?_seedOfFlits (flits : List Word) (l j : Nat) :
    (seedOfFlits flits l)[j]? =
      if j < l then flits[j / 8]?.map fun f => byteOf f (j % 8) else none := by
  have hbyte := getElem?_flatMap_unpackBytes flits (j / 8) (j % 8) (Nat.mod_lt _ (by omega))
  rw [Nat.div_add_mod] at hbyte
  rw [seedOfFlits, List.getElem?_take, hbyte]

/-- Seed flits that agree on their first `l` bytes hold the same seed. -/
theorem seedOfFlits_congr {flits flits' : List Word} {l : Nat}
    (h : ∀ j < l, flits[j / 8]?.map (fun f => byteOf f (j % 8)) =
      flits'[j / 8]?.map fun f => byteOf f (j % 8)) : seedOfFlits flits l = seedOfFlits flits' l := by
  apply List.ext_getElem?
  intro j
  simp only [getElem?_seedOfFlits]
  split
  next hj => exact h j hj
  next => rfl

/-- A CONSTRUCT frame of the right flit count decodes, N untruncated. -/
theorem decodeFrame_construct (n : Word) {l : Word} {flits : List Word}
    (h : flits.length = seedFlits l.toNat) :
    decodeFrame (1 :: n :: l :: flits) = .ok (.construct n (seedOfFlits flits l.toNat)) :=
  decodeFrame_cons_eq_ok.2 ⟨rfl, l, flits, rfl, h, rfl⟩

/-- Settles O3. -/
theorem seedBytesArePackedAndPaddingIsIgnored :
    Obligations.SeedBytesArePackedAndPaddingIsIgnored := by
  constructor
  · intro n l flits hlen
    refine ⟨_, decodeFrame_construct n hlen, seedOfFlits_length hlen, fun j hj => ?_⟩
    rw [getElem?_seedOfFlits, if_pos hj]
    rfl
  · intro n l flits flits' hlen hlen' hbytes
    rw [decodeFrame_construct n hlen, decodeFrame_construct n hlen', seedOfFlits_congr hbytes]

/-! ## Which frames are malformed (R79, R80) -/

/-- A reserved OPCODE, or a header with a bit of RSVD set, names no command. -/
theorem decodeFrame_of_reserved {header : Word} (h : header = 0 ∨ 8 ≤ header.toNat)
    (operands : List Word) : ∃ e, decodeFrame (header :: operands) = .error e := by
  cases hdecode : decodeFrame (header :: operands) with
  | error e => exact ⟨e, rfl⟩
  | ok i =>
    obtain ⟨rfl, -⟩ := decodeFrame_cons_eq_ok.1 hdecode
    have hbounds := opcode_toNat_bounds i
    have hheader : ((opcode i).setWidth 64).toNat = (opcode i).toNat := by
      rw [BitVec.toNat_setWidth, Nat.mod_eq_of_lt (by omega)]
    rcases h with hzero | hge
    · have hnat : ((opcode i).setWidth 64).toNat = 0 := congrArg BitVec.toNat hzero
      omega
    · omega

theorem decodeConstruct_of_length_lt {operands : List Word} (h : operands.length < 2) :
    decodeConstruct operands = .error .wrongLength := by
  match operands, h with
  | [], _ => rfl
  | [_], _ => rfl

theorem decodeConstruct_of_length_ne (n : Word) {l : Word} {flits : List Word}
    (h : flits.length ≠ seedFlits l.toNat) :
    decodeConstruct (n :: l :: flits) = .error .wrongLength := if_neg h

theorem decodeAmount_of_length_ne (mk : Word → Instr) {operands : List Word}
    (h : operands.length ≠ 1) : decodeAmount mk operands = .error .wrongLength := by
  match operands, h with
  | [], _ => rfl
  | _ :: _ :: _, _ => rfl

theorem decodeBare_of_length_ne (i : Instr) {operands : List Word} (h : operands.length ≠ 0) :
    decodeBare i operands = .error .wrongLength := by
  match operands, h with
  | _ :: _, _ => rfl

end Sys2Proof

namespace Sys2Proof.Machine

/-! ## The step on a frame (R70, R78 to R80) -/

/-- Settles O8. -/
theorem encodedFrameOnThePortRuns : Obligations.EncodedFrameOnThePortRuns := fun i _ rest hwf habort =>
  stepRunsTheDecodedCommand _ _ rest i (receive_frameEvents (List.cons_ne_nil _ _) rest) habort
    (decodeEncodeRoundTrip i hwf)

/-- The status flit of InvalidArgument (R84, R240). -/
theorem statusFlit_invalidArgument (l : Life) :
    statusFlit .invalidArgument l = if l = .ready then 0x103 else 0x003 := by
  cases l <;> rfl

/-- A malformed frame that no reset hits is consumed, gets the one flit of InvalidArgument and changes
no state. -/
theorem step_of_malformed {s : State} {flits : List Word} {rest : List PortEvent} {e : DecodeError}
    (hport : receive s.cmdIn = .frame flits rest) (habort : ∀ k later, rest ≠ .abort k :: later)
    (hdecode : decodeFrame flits = .error e) :
    step s = .next { s with
      cmdIn := rest
      respOut := s.respOut ++ [⟨if s.life = .ready then 0x103 else 0x003, true⟩] } := by
  rw [step_of_frame hport habort, ← statusFlit_invalidArgument]
  exact runFrame_eq_next.2 (.inr ⟨e, hdecode, rfl⟩)

/-- Settles O4. -/
theorem reservedHeadersGetInvalidArgument : Obligations.ReservedHeadersGetInvalidArgument := by
  intro s header operands rest hport habort hreserved
  obtain ⟨e, hdecode⟩ := decodeFrame_of_reserved hreserved operands
  exact step_of_malformed hport habort hdecode

/-- Settles O5: whichever count is wrong, the decoder of that OPCODE's operands says so. -/
theorem wrongFlitCountsGetInvalidArgument : Obligations.WrongFlitCountsGetInvalidArgument := by
  intro s header operands rest hport habort hwrong
  refine step_of_malformed (e := .wrongLength) hport habort ?_
  rcases hwrong with ⟨rfl, hlen⟩ | ⟨rfl, n, l, flits, rfl, hlen⟩ | ⟨rfl | rfl, hlen⟩ |
    ⟨rfl | rfl | rfl | rfl, hlen⟩
  · exact decodeConstruct_of_length_lt hlen
  · exact decodeConstruct_of_length_ne n hlen
  · exact decodeAmount_of_length_ne .extractU64 hlen
  · exact decodeAmount_of_length_ne .extractF64 hlen
  · exact decodeBare_of_length_ne .checkpoint hlen
  · exact decodeBare_of_length_ne .restore hlen
  · exact decodeBare_of_length_ne .readState hlen
  · exact decodeBare_of_length_ne .getStatus hlen

/-! ## Responses (R70, R84, R85) -/

/-- Flit `i` of a frame carries value `i`, with LAST if no value follows. -/
theorem getElem?_frameOf (vs : List Word) (i : Nat) :
    (frameOf vs)[i]? = vs[i]?.map fun v => ⟨v, decide (i + 1 = vs.length)⟩ := by
  fun_induction frameOf vs generalizing i with
  | case1 => rfl
  | case2 v => cases i <;> simp
  | case3 v w vs ih =>
    cases i with
    | zero => simp
    | succ i => simp [ih]

/-- Settles O13. -/
theorem lastMarksTheFinalFlitOnly : Obligations.LastMarksTheFinalFlitOnly := by
  intro vs
  refine ⟨frameOf_data vs, fun i hi => ?_⟩
  rw [getElem?_frameOf, List.getElem?_eq_getElem hi]
  rfl

/-- The shifted READY bit is outside the low byte, which is CODE's alone. -/
theorem statusFlit_code (c : Code) (l : Life) :
    (statusFlit c l).extractLsb' 0 8 = (codeNumber c).setWidth 8 := by
  cases l <;> cases c <;> rfl

/-- No CODE reaches bit 8, which is READY's alone. -/
theorem statusFlit_ready (c : Code) (l : Life) :
    (statusFlit c l).getLsbD 8 = decide (l = .ready) := by
  cases l <;> cases c <;> rfl

theorem statusFlit_above (c : Code) (l : Life) : statusFlit c l >>> 9 = 0 := by
  cases l <;> cases c <;> rfl

/-- Settles O12. -/
theorem statusFlitLayout : Obligations.StatusFlitLayout := by
  intro c l
  refine ⟨?_, statusFlit_ready c l, statusFlit_above c l⟩
  rw [statusFlit_code]
  cases c <;> rfl

end Sys2Proof.Machine

/-! PROOF. The SeedAbsorber (40_construct.md R103 to R106): both variants XOR windows of the seed into a zeroed
buffer and differ only in how many. Then the errors of CONSTRUCT in their order (R101, R102, R245). -/

namespace Sys2Proof.Machine

/-! ## One window (R103) -/

@[simp] theorem xorPrefix_nil (b : List Byte) : xorPrefix b [] = b := by cases b <;> rfl

/-- Byte `t` takes window byte `t`, and nothing past the window's end. -/
theorem getElem?_xorPrefix (b w : List Byte) (t : Nat) :
    (xorPrefix b w)[t]? = b[t]?.map (· ^^^ w.getD t 0) := by
  fun_induction xorPrefix b w generalizing t with
  | case1 x bs y ws ih => cases t <;> simp [ih]
  | case2 bs ws hnil =>
    cases bs with
    | nil => simp
    | cons x bs =>
      cases ws with
      | nil => simp
      | cons y ws => exact (hnil x bs y ws rfl rfl).elim

/-- Folding a window no longer than the zeroed buffer copies it. -/
theorem xorPrefix_zeros {n : Nat} {w : List Byte} (h : w.length ≤ n) :
    xorPrefix (List.replicate n 0) w = w ++ List.replicate (n - w.length) 0 := by
  induction w generalizing n with
  | nil => simp
  | cons x w ih =>
    cases n with
    | zero => simp at h
    | succ n => simpa [List.replicate_succ, xorPrefix] using ih (Nat.le_of_succ_le_succ h)

/-! ## The first windows of a seed, and the two loops over them -/

/-- The zeroed buffer of `n` bytes with the first `k` windows of `n` seed bytes XORed in. -/
def foldWindows (n : Nat) (seed : List Byte) : Nat → List Byte
  | 0 => List.replicate n 0
  | k + 1 => xorPrefix (foldWindows n seed k) ((seed.drop (n * k)).take n)

@[simp] theorem foldWindows_length (n : Nat) (seed : List Byte) (k : Nat) :
    (foldWindows n seed k).length = n := by
  induction k with
  | zero => simp [foldWindows]
  | succ k ih => simp [foldWindows, ih]

/-- A window past the seed's end is empty. -/
theorem foldWindows_succ_of_length_le {n k : Nat} {seed : List Byte} (h : seed.length ≤ n * k) :
    foldWindows n seed (k + 1) = foldWindows n seed k := by
  simp [foldWindows, List.drop_eq_nil_of_le h]

theorem foldWindows_of_length_le {n j k : Nat} {seed : List Byte} (h : seed.length ≤ n * j)
    (hjk : j ≤ k) : foldWindows n seed k = foldWindows n seed j := by
  induction k, hjk using Nat.le_induction with
  | base => rfl
  | succ k hjk ih =>
    rw [foldWindows_succ_of_length_le (h.trans (Nat.mul_le_mul_left n hjk)), ih]

/-- Windows that end within the first `l` seed bytes see no others. -/
theorem foldWindows_take {n k l : Nat} (seed : List Byte) (h : n * k ≤ l) :
    foldWindows n (seed.take l) k = foldWindows n seed k := by
  induction k with
  | zero => rfl
  | succ k ih =>
    rw [Nat.mul_succ] at h
    rw [foldWindows, foldWindows, ih (by omega), List.drop_take, List.take_take,
      Nat.min_eq_left (by omega)]

/-- R103's loop folds one window a turn. -/
theorem foldAllLoop_foldWindows (n : Nat) (seed : List Byte) (fuel k : Nat) :
    foldAllLoop n seed fuel (n * k) (foldWindows n seed k) = foldWindows n seed (k + fuel) := by
  induction fuel generalizing k with
  | zero => rfl
  | succ fuel ih =>
    unfold foldAllLoop
    split
    next hlt =>
      have hwindow : (seed.drop (n * k)).take (min n (seed.length - n * k)) =
          (seed.drop (n * k)).take n := by
        rw [← List.length_drop, ← List.take_eq_take_min]
      rw [hwindow, ← foldWindows, ← Nat.mul_succ, ih, Nat.succ_add_eq_add_succ]
    next hge => exact (foldWindows_of_length_le (by omega) (by omega)).symm

/-- FOLD_ALL folds enough windows to cover the seed; how many more makes no difference. -/
theorem absorbFoldAll_eq_foldWindows {n k : Nat} {seed : List Byte} (hn : 0 < n)
    (h : seed.length ≤ n * k) : absorbFoldAll n seed = foldWindows n seed k := by
  have hloop : absorbFoldAll n seed = foldWindows n seed seed.length := by
    have h0 := foldAllLoop_foldWindows n seed seed.length 0
    rwa [Nat.zero_add] at h0
  have hcover : seed.length ≤ n * seed.length := Nat.le_mul_of_pos_left _ hn
  rw [hloop]
  rcases Nat.le_total seed.length k with hle | hle
  · exact (foldWindows_of_length_le hcover hle).symm
  · exact foldWindows_of_length_le h hle

/-- R104's loop stops at the window that reaches the seed's end, with that window not folded. -/
theorem literalLoop_foldWindows {n c : Nat} {seed : List Byte} (hlt : n * c < seed.length)
    (hle : seed.length ≤ n * (c + 1)) {fuel k : Nat} (hk : k ≤ c) (hfuel : c ≤ k + fuel) :
    literalLoop n seed fuel (n * k) (foldWindows n seed k) = (foldWindows n seed c, n * c) := by
  induction fuel generalizing k with
  | zero => rw [Nat.le_antisymm hk hfuel]; rfl
  | succ fuel ih =>
    rw [Nat.mul_succ] at hle
    unfold literalLoop
    rcases hk.lt_or_eq with hkc | rfl
    · have hnext : n * k + n ≤ n * c := Nat.mul_le_mul_left n hkc
      rw [if_pos (by omega), ← foldWindows, ← Nat.mul_succ, ih hkc (by omega)]
    · rw [if_neg (by omega)]

/-- LITERAL on a seed of more than one window folds all but the last. -/
theorem absorbLiteral_eq_foldWindows {n c : Nat} {seed : List Byte} (hn : 0 < n) (hc : 0 < c)
    (hlt : n * c < seed.length) (hle : seed.length ≤ n * (c + 1)) :
    absorbLiteral n seed = foldWindows n seed c := by
  have hcn : c ≤ n * c := Nat.le_mul_of_pos_left _ hn
  have hloop : literalLoop n seed seed.length 0 (List.replicate n 0) = (foldWindows n seed c, n * c) :=
    literalLoop_foldWindows (k := 0) hlt hle (Nat.zero_le c) (by omega)
  rw [absorbLiteral, hloop]
  exact if_neg (by omega)

/-! ## Seeds of at most `N` bytes (R105, R106) -/

/-- On a seed of at most one window R104's loop makes no turn. -/
theorem literalLoop_of_length_le {n : Nat} {seed : List Byte} (h : seed.length ≤ n) (fuel i : Nat)
    (b : List Byte) : literalLoop n seed fuel i b = (b, i) := by
  cases fuel with
  | zero => rfl
  | succ fuel => exact if_neg (by omega)

theorem absorb_of_length_le (v : AbsorbVariant) {n : Nat} {seed : List Byte} (hn : 0 < n)
    (h : seed.length ≤ n) : absorb v n seed = seed ++ List.replicate (n - seed.length) 0 := by
  rw [← xorPrefix_zeros h]
  cases v with
  | foldAll =>
    rw [absorb, absorbFoldAll_eq_foldWindows hn (k := 1) (by omega)]
    simp [foldWindows, List.take_of_length_le h]
  | literal => rw [absorb, absorbLiteral, literalLoop_of_length_le h]; rfl

/-- Settles O21. -/
theorem shortSeedsAreCopied : Obligations.ShortSeedsAreCopied :=
  fun v _ _ hpos hle => absorb_of_length_le v (hpos.trans hle) hle

/-! ## Seeds of more than `N` bytes under LITERAL (R104) -/

/-- The last of the `ceil(L/N)` windows begins before the seed's end, and no window follows it. -/
theorem lastWindow_bounds {n l : Nat} (hn : 0 < n) (h : n < l) :
    0 < (l + n - 1) / n - 1 ∧ n * ((l + n - 1) / n - 1) < l ∧
      l ≤ n * ((l + n - 1) / n - 1 + 1) := by
  have hdiv := Nat.div_add_mod (l + n - 1) n
  have hmod := Nat.mod_lt (l + n - 1) hn
  have htwo : 2 ≤ (l + n - 1) / n := (Nat.le_div_iff_mul_le hn).2 (by omega)
  have hmul : n * 2 ≤ n * ((l + n - 1) / n) := Nat.mul_le_mul_left n htwo
  rw [Nat.mul_succ, Nat.mul_sub_one]
  omega

/-- Settles O20: both sides fold the windows before the last. -/
theorem literalDropsTheLastWindow : Obligations.LiteralDropsTheLastWindow := by
  intro n seed hn
  refine ⟨fun h => ⟨absorb_of_length_le _ hn h, absorb_of_length_le _ hn h⟩, fun h => ?_⟩
  obtain ⟨hpos, hlt, hle⟩ := lastWindow_bounds hn h
  generalize (seed.length + n - 1) / n - 1 = c at hpos hlt hle ⊢
  have hsame : absorb .literal n seed = absorb .foldAll n (seed.take (n * c)) :=
    calc absorb .literal n seed
      _ = foldWindows n seed c := absorbLiteral_eq_foldWindows hn hpos hlt hle
      _ = foldWindows n (seed.take (n * c)) c := (foldWindows_take seed le_rfl).symm
      _ = absorb .foldAll n (seed.take (n * c)) :=
        (absorbFoldAll_eq_foldWindows hn (by simp)).symm
  rw [Nat.mul_succ] at hle
  exact ⟨by omega, by omega, hsame⟩

/-! ## Every byte under FOLD_ALL (R103) -/

/-- The XOR of the seed bytes `j < m` with `j mod n = t`. -/
def residueXor (n : Nat) (seed : List Byte) (m t : Nat) : Byte :=
  ((List.range m).filter fun j => j % n = t).foldl (fun acc j => acc ^^^ seed.getD j 0) 0

theorem residueXor_succ (n : Nat) (seed : List Byte) (m t : Nat) :
    residueXor n seed (m + 1) t =
      residueXor n seed m t ^^^ if m % n = t then seed.getD m 0 else 0 := by
  rw [residueXor, List.range_succ, List.filter_append, List.foldl_append]
  by_cases h : m % n = t <;> simp [residueXor, h]

/-- Past the seed's end there is nothing to XOR. -/
theorem residueXor_of_length_le (n : Nat) {seed : List Byte} {m : Nat} (h : seed.length ≤ m) (t : Nat) :
    residueXor n seed m t = residueXor n seed seed.length t := by
  induction m, h using Nat.le_induction with
  | base => rfl
  | succ m h ih => rw [residueXor_succ, ih]; simp [List.getElem?_eq_none h]

/-- A window has exactly one byte of each residue. -/
theorem residueXor_window {n t : Nat} (seed : List Byte) (k : Nat) (ht : t < n) :
    residueXor n seed (n * (k + 1)) t = residueXor n seed (n * k) t ^^^ seed.getD (n * k + t) 0 := by
  have hpart : ∀ m ≤ n, residueXor n seed (n * k + m) t =
      residueXor n seed (n * k) t ^^^ if t < m then seed.getD (n * k + t) 0 else 0 := by
    intro m hm
    induction m with
    | zero => simp
    | succ m ih =>
      have hres : (n * k + m) % n = m := by rw [Nat.mul_add_mod, Nat.mod_eq_of_lt hm]
      rw [← Nat.add_assoc, residueXor_succ, ih (by omega), hres]
      rcases Nat.lt_trichotomy t m with hlt | rfl | hgt
      · simp [hlt, hlt.ne', Nat.lt_succ_of_lt hlt]
      · simp
      · simp [hgt.ne, show ¬ t < m by omega, show ¬ t < m + 1 by omega]
  rw [Nat.mul_succ, hpart n le_rfl, if_pos ht]

theorem getElem?_foldWindows {n t : Nat} (seed : List Byte) (k : Nat) (ht : t < n) :
    (foldWindows n seed k)[t]? = some (residueXor n seed (n * k) t) := by
  induction k with
  | zero => simp [foldWindows, residueXor, ht]
  | succ k ih =>
    have hbyte : ((seed.drop (n * k)).take n).getD t 0 = seed.getD (n * k + t) 0 := by
      simp [List.getElem?_take_of_lt ht]
    rw [foldWindows, getElem?_xorPrefix, ih, hbyte, residueXor_window seed k ht]
    rfl

/-- Settles O19: as many windows as there are seed bytes cover the seed. -/
theorem foldAllXorsEverySeedByte : Obligations.FoldAllXorsEverySeedByte := by
  intro n seed
  change absorb .foldAll n seed = (List.range n).map (residueXor n seed seed.length)
  apply List.ext_getElem?
  intro t
  by_cases ht : t < n
  · have hn : 0 < n := Nat.zero_lt_of_lt ht
    have hcover : seed.length ≤ n * seed.length := Nat.le_mul_of_pos_left _ hn
    rw [absorb, absorbFoldAll_eq_foldWindows hn hcover, getElem?_foldWindows seed _ ht,
      residueXor_of_length_le n hcover]
    simp [ht]
  · rw [List.getElem?_eq_none (by simpa using ht), List.getElem?_eq_none (by simpa using ht)]

/-! ## The errors of CONSTRUCT (R101, R102, R245) -/

/-- R101's three ways for `N` to be illegal. -/
theorem legalSize_eq_false_iff {nMax n : Nat} :
    legalSize nMax n = false ↔ n = 0 ∨ n % 32 ≠ 0 ∨ nMax < n := by
  rw [← Bool.not_eq_true, legalSize_iff]
  omega

/-- In UNINIT a response without payload is its CODE alone, with READY = 0. -/
theorem respond_nil_of_uninit {s : State} (h : s.life = .uninit) (c : Code) :
    respond c [] s = { s with respOut := s.respOut ++ [⟨codeNumber c, true⟩] } := by
  rw [respond, h]
  cases c <;> rfl

/-- Settles O29. -/
theorem constructErrorsInOrder : Obligations.ConstructErrorsInOrder := by
  intro s n seed hl
  refine ⟨fun hempty => ?_, fun hseed hsize => ?_⟩
  · exact constructWith_eq_next.2 (.inr (.inl
      ⟨hl, List.length_eq_zero_iff.1 hempty, (respond_nil_of_uninit hl .invalidSeed).symm⟩))
  · exact constructWith_eq_next.2 (.inr (.inr (.inl
      ⟨hl, mt List.length_eq_zero_iff.2 hseed, legalSize_eq_false_iff.2 hsize,
        (respond_nil_of_uninit hl .invalidConfig).symm⟩)))

end Sys2Proof.Machine

/-! PROOF. The Diffuser (41_diffuser.md): the degeneracy constant and the mixed value (R120, R122, R124), one
ring step (R121), and the blocks a round leaves (R123, R125, R127). -/

namespace Sys2Proof.Machine

/-! ## The degeneracy constant and the mixed value (R120, R122, R124) -/

/-- Settles O22. -/
theorem degeneracyConstantBytes : Obligations.DegeneracyConstantBytes := by
  intro t ht
  change byteOf degeneracyConstant t = _
  rw [degeneracyConstant, byteOf_packBytes (by simp) (by simpa using ht)]
  simp

@[simp] theorem breakDegeneracy_self (a : Block) : breakDegeneracy a a = a ^^^ degeneracyConstant :=
  if_pos rfl

theorem breakDegeneracy_of_ne {a b : Block} (h : a ≠ b) : breakDegeneracy a b = b := if_neg h

/-- R124's value with the choice of `Bo` as a condition on the setting. -/
theorem mixBlocks_eq (p : Params) (a b : Block) :
    mixBlocks p a b =
      (if p.degenUpdate = .original then b else breakDegeneracy a b) ^^^ p.hash256 a ^^^
        p.hash256 (breakDegeneracy a b) ^^^ a := by
  rw [mixBlocks]
  cases p.degenUpdate <;> rfl

theorem mixBlocks_of_original {p : Params} (h : p.degenUpdate = .original) (a b : Block) :
    mixBlocks p a b = b ^^^ p.hash256 a ^^^ p.hash256 (breakDegeneracy a b) ^^^ a := by
  rw [mixBlocks_eq, if_pos h]

theorem mixBlocks_of_modified {p : Params} (h : p.degenUpdate = .modified) (a b : Block) :
    mixBlocks p a b =
      breakDegeneracy a b ^^^ p.hash256 a ^^^ p.hash256 (breakDegeneracy a b) ^^^ a := by
  rw [mixBlocks_eq, if_neg (by rw [h]; decide)]

/-- Settles O24: `Bo` is the one place where the settings differ, and it is B under both unless A equals
B. -/
theorem degenSettingsDifferByTheConstant : Obligations.DegenSettingsDifferByTheConstant := by
  intro p a b
  rw [mixBlocks_of_modified rfl, mixBlocks_of_original rfl]
  by_cases h : a = b
  · subst h
    rw [if_pos rfl, breakDegeneracy_self]
    ac_rfl
  · rw [if_neg h, breakDegeneracy_of_ne h]
    exact BitVec.xor_zero.symm

/-! ## One ring step (R121, R123) -/

/-- A ring step is one block write of the mixed value of the two blocks it reads. -/
theorem ringStep_eq_writeBlock (p : Params) {n : Nat} {m : Memory} {i : Nat} {a b : Block}
    (ha : readBlock n m i = .ok a) (hb : readBlock n m ((i + 1) % blockCount n) = .ok b) :
    ringStep p n m i = writeBlock n m ((i + 1) % blockCount n) (mixBlocks p a b) := by
  simp only [ringStep, ha, hb, bind, Except.bind]

/-- A block just written reads as the value. -/
theorem readBlock_writeBlock_same {n : Nat} {m m' : Memory} {i : Nat} {b : Block}
    (h : writeBlock n m i b = .ok m') : readBlock n m' i = .ok b :=
  readBlock_eq_ok.2 ⟨(writeBlock_eq_ok.1 h).1, fun _ ht => readByte_writeBlock_same h ht⟩

theorem writeBlock_wf {n : Nat} {m m' : Memory} {i : Nat} {b : Block}
    (h : writeBlock n m i b = .ok m') (hwf : Memory.wf m) : Memory.wf m' := by
  obtain ⟨-, hm'⟩ := writeBlock_eq_ok.1 h
  rw [hm']
  exact writeBytes_wf hwf _ _

/-- Settles O23: the step is a block write, whose read-back, frame and canonical form are the laws of the
state buffer. -/
theorem ringStepWritesOneMixedBlock : Obligations.RingStepWritesOneMixedBlock := by
  intro p n m i a b _ _ ha hb k b' bo
  have hmix : mixBlocks p a b = bo ^^^ p.hash256 a ^^^ p.hash256 b' ^^^ a := mixBlocks_eq p a b
  have hk : 32 * k + 32 ≤ n := (readBlock_eq_ok.1 hb).1
  have hw : writeBlock n m k (mixBlocks p a b) = .ok _ := writeBlock_eq_ok.2 ⟨hk, rfl⟩
  exact ⟨_, (ringStep_eq_writeBlock p ha hb).trans hw, hmix ▸ readBlock_writeBlock_same hw,
    fun _ haddr => readByte_writeBlock_of_outside hw haddr, writeBlock_wf hw⟩

/-! ## A round of a one-block ring (R125) -/

/-- The one step of a one-block ring mixes the block with itself. -/
theorem roundBlocks_singleton (p : Params) (a : Block) : roundBlocks p [a] = [mixBlocks p a a] := by
  simp [roundBlocks, ringStepBlocks]

/-- Settles O25: A and B are the one block, so the degeneracy is broken, and the block itself
cancels. -/
theorem oneBlockRingRound : Obligations.OneBlockRingRound := by
  intro p m a ha
  have hring : Memory.Ring 32 m [a] := by
    refine ⟨rfl, fun i hi => ?_⟩
    obtain rfl : i = 0 := by simpa using hi
    exact ha
  obtain ⟨m', hround, ⟨-, hblocks⟩, -, -⟩ := diffRound_spec p hring
  rw [roundBlocks_singleton] at hblocks
  refine ⟨m', hround, (hblocks 0 Nat.zero_lt_one).trans (congrArg Except.ok ?_)⟩
  have hcancel (x : Block) : a ^^^ x ^^^ a = x := by
    rw [BitVec.xor_comm a x, BitVec.xor_assoc, BitVec.xor_self, BitVec.xor_zero]
  cases h : p.degenUpdate with
  | original =>
    rw [List.getElem_singleton, mixBlocks_of_original h, breakDegeneracy_self]
    simpa only [BitVec.xor_assoc] using
      hcancel (p.hash256 a ^^^ p.hash256 (a ^^^ degeneracyConstant))
  | modified =>
    rw [List.getElem_singleton, mixBlocks_of_modified h, breakDegeneracy_self]
    simpa only [BitVec.xor_assoc] using
      hcancel (degeneracyConstant ^^^ p.hash256 a ^^^ p.hash256 (a ^^^ degeneracyConstant))

/-! ## The chain of a round (R123, R127) -/

/-- The value A of step `i` of a round: block 0 as it was, then each block as the step before wrote it. -/
def chainBlock (p : Params) (ring : List Block) : Nat → Block
  | 0 => ring.getD 0 0
  | i + 1 => mixBlocks p (chainBlock p ring i) (ring.getD (i + 1) 0)

theorem chainBlock_of_pos (p : Params) (ring : List Block) {k : Nat} (hk : 1 ≤ k) :
    chainBlock p ring k = mixBlocks p (chainBlock p ring (k - 1)) (ring.getD k 0) := by
  obtain ⟨i, rfl⟩ := Nat.exists_eq_add_of_le' hk
  rfl

/-- What a ring step leaves at each index: the mixed value at `(i + 1) mod M`, the rest as before. -/
theorem getD_ringStepBlocks (p : Params) {ring : List Block} {i k : Nat} (hk : k < ring.length) :
    (ringStepBlocks p ring i).getD k 0 =
      if (i + 1) % ring.length = k then mixBlocks p (ring.getD i 0) (ring.getD k 0)
      else ring.getD k 0 := by
  simp only [ringStepBlocks, List.getD_eq_getElem?_getD, List.getElem?_set]
  by_cases h : (i + 1) % ring.length = k
  · rw [if_pos h, if_pos (h ▸ hk), if_pos h, h, Option.getD_some]
  · rw [if_neg h, if_neg h]

/-- The ring after the first `j` steps of a round. -/
def stepsBlocks (p : Params) (ring : List Block) (j : Nat) : List Block :=
  (List.range j).foldl (ringStepBlocks p) ring

theorem roundBlocks_eq_stepsBlocks (p : Params) (ring : List Block) :
    roundBlocks p ring = stepsBlocks p ring ring.length := rfl

theorem stepsBlocks_succ (p : Params) (ring : List Block) (j : Nat) :
    stepsBlocks p ring (j + 1) = ringStepBlocks p (stepsBlocks p ring j) j := by
  rw [stepsBlocks, List.range_succ, List.foldl_append]
  rfl

theorem stepsBlocks_length (p : Params) (ring : List Block) (j : Nat) :
    (stepsBlocks p ring j).length = ring.length := by
  induction j with
  | zero => rfl
  | succ j ih => rw [stepsBlocks_succ, ringStepBlocks_length, ih]

/-- Before its last step a round has written blocks `1` to `j`, each from the chain, and no other. -/
theorem getD_stepsBlocks (p : Params) {ring : List Block} {j k : Nat} (hj : j < ring.length)
    (hk : k < ring.length) :
    (stepsBlocks p ring j).getD k 0 = if k ≤ j then chainBlock p ring k else ring.getD k 0 := by
  induction j generalizing k with
  | zero =>
    cases k with
    | zero => rfl
    | succ k => rfl
  | succ j ih =>
    have hlast : j < ring.length := Nat.lt_of_succ_lt hj
    rw [stepsBlocks_succ, getD_ringStepBlocks p (by rwa [stepsBlocks_length]), stepsBlocks_length,
      Nat.mod_eq_of_lt hj, ih hlast hlast, ih hlast hk, if_pos le_rfl]
    by_cases heq : j + 1 = k
    · subst heq
      rw [if_pos rfl, if_neg (by omega), if_pos le_rfl, chainBlock]
    · have hle : k ≤ j + 1 ↔ k ≤ j := by omega
      simp only [if_neg heq, hle]

/-- What a round of two or more blocks leaves (R127): the chain, closed at block 0 by the last step. -/
theorem getD_roundBlocks (p : Params) {ring : List Block} (hM : 2 ≤ ring.length) {k : Nat}
    (hk : k < ring.length) :
    (roundBlocks p ring).getD k 0 =
      if k = 0 then mixBlocks p (chainBlock p ring (ring.length - 1)) (ring.getD 0 0)
      else chainBlock p ring k := by
  obtain ⟨j, hj⟩ := Nat.exists_eq_add_of_le' (show 1 ≤ ring.length by omega)
  have hlast : j < ring.length := by omega
  have hwrap : (j + 1) % ring.length = 0 := by rw [hj, Nat.mod_self]
  rw [roundBlocks_eq_stepsBlocks, hj, stepsBlocks_succ,
    getD_ringStepBlocks p (by rwa [stepsBlocks_length]), stepsBlocks_length, hwrap,
    getD_stepsBlocks p hlast hlast, getD_stepsBlocks p hlast hk, if_pos le_rfl,
    if_pos (show k ≤ j by omega), Nat.add_sub_cancel]
  cases k with
  | zero => rfl
  | succ k => rfl

/-- A buffer of whole blocks, each of them readable, has its blocks as a list. -/
theorem exists_ring_of_readBlock {n : Nat} {m : Memory} (hn : n % 32 = 0)
    (h : ∀ i < n / 32, ∃ b, readBlock n m i = .ok b) : ∃ ring, Memory.Ring n m ring := by
  refine Memory.Holds.ring fun a ha => ?_
  obtain ⟨b, hb⟩ := h (a / 32) (by omega)
  obtain ⟨-, hbytes⟩ := readBlock_eq_ok.1 hb
  have hbyte := hbytes (a % 32) (Nat.mod_lt a (by decide))
  rw [Nat.div_add_mod] at hbyte
  exact ⟨_, hbyte⟩

theorem Memory.Ring.readBlock_getD {n : Nat} {m : Memory} {ring : List Block}
    (h : Memory.Ring n m ring) {i : Nat} (hi : i < ring.length) :
    Machine.readBlock n m i = .ok (ring.getD i 0) := by
  rw [h.2 i hi, List.getD_eq_getElem _ _ hi]

/-- Settles O26: block `k` of the chain mixes block `k - 1` of the chain, which the round leaves from block 1
on, with the old block `k`; the last step closes the ring. -/
theorem roundChainsTheRing : Obligations.RoundChainsTheRing := by
  intro p n m hmod hn hread
  obtain ⟨ring, hring⟩ := exists_ring_of_readBlock hmod hread
  obtain ⟨m', hround, hring', -, hframe⟩ := diffRound_spec p hring
  have hlen : ring.length = n / 32 := hring.1
  have hM : 2 ≤ ring.length := by omega
  have hzero : readBlock n m 0 = .ok (chainBlock p ring 0) := hring.readBlock_getD (by omega)
  have hlen' : (roundBlocks p ring).length = n / 32 := hring'.1
  have hnew {k : Nat} (hk : k < ring.length) :
      readBlock n m' k = .ok ((roundBlocks p ring).getD k 0) := hring'.readBlock_getD (by omega)
  have hchain {k : Nat} (hpos : k ≠ 0) (hk : k < ring.length) :
      readBlock n m' k = .ok (chainBlock p ring k) := by
    rw [hnew hk, getD_roundBlocks p hM hk, if_neg hpos]
  refine ⟨m', hround, fun k hpos hk => ?_, ?_, hframe⟩
  · refine ⟨chainBlock p ring (k - 1), ring.getD k 0, ?_, hring.readBlock_getD (by omega), ?_⟩
    · by_cases hfirst : k = 1
      · rw [if_pos hfirst, hfirst]
        exact hzero
      · rw [if_neg hfirst]
        exact hchain (by omega) (by omega)
    · rw [← chainBlock_of_pos p ring hpos]
      exact hchain (by omega) (by omega)
  · refine ⟨chainBlock p ring (ring.length - 1), ring.getD 0 0, ?_, hzero, ?_⟩
    · rw [← hlen]
      exact hchain (by omega) (by omega)
    · rw [hnew (by omega), getD_roundBlocks p hM (by omega), if_pos rfl]

end Sys2Proof.Machine

/-! PROOF. O27: R144 in full. The closed forms and the parity left are the lemmas about `adjust`; what remains
is that neither the subtraction nor the addition of R143 wraps. -/

namespace Sys2Proof.Machine

/-- The subtraction of R143 does not borrow. -/
theorem toNat_sub_umod (v m : Word) : (v - v % m).toNat = v.toNat - v.toNat % m.toNat := by
  have hle : v % m ≤ v := by
    rw [BitVec.le_def, BitVec.toNat_umod]
    exact Nat.mod_le _ _
  rw [BitVec.toNat_sub_of_le hle, BitVec.toNat_umod]

/-- Once the remainder is off a whole modulus still fits: the multiple of `m` left is below `2^64`, itself a
multiple of `m`. So no correction `c < m` can carry out of the addition of R143. -/
theorem toNat_sub_umod_add_le {m : Word} (v : Word) (hm : m.toNat ∣ 2 ^ 64) :
    (v - v % m).toNat + m.toNat ≤ 2 ^ 64 := by
  obtain ⟨k, hk⟩ := hm
  have hquot : v.toNat / m.toNat < k := Nat.div_lt_of_lt_mul (hk ▸ v.isLt)
  calc (v - v % m).toNat + m.toNat
      = m.toNat * (v.toNat / m.toNat + 1) := by
        rw [toNat_sub_umod, ← Nat.mul_div_self_eq_mod_sub_self, Nat.mul_succ]
    _ ≤ m.toNat * k := Nat.mul_le_mul_left _ hquot
    _ = 2 ^ 64 := hk.symm

/-- Settles O27, the moduli 4 and 2 dividing `2^64`. -/
theorem parityAdjustmentClosedForms : Obligations.ParityAdjustmentClosedForms := by
  intro v
  have hfour : (4 : Word).toNat ∣ 2 ^ 64 := by decide
  have htwo : (2 : Word).toNat ∣ 2 ^ 64 := by decide
  exact ⟨adjust_four_one_eq v, adjust_two_one_eq v, adjust_two_zero_eq v,
    toNat_sub_umod v 4, toNat_sub_umod_add_le v hfour,
    toNat_sub_umod v 2, toNat_sub_umod_add_le v htwo,
    adjust_umod v (by decide) hfour, adjust_umod v (by decide) htwo,
    adjust_umod v (by decide) htwo⟩

end Sys2Proof.Machine

/-! PROOF. The StreamExtractor (43_extract.md): one EmitOne as an equation (R161, R162), the words of one epoch
(R166, R167, R169), the cursors (R168), and the extraction commands (R160, R163, R164, R170). -/

namespace Sys2Proof.Machine

/-! ## One EmitOne (R161, R162, R165) -/

/-- The word lane `j` emits next: its step under the mask of `c` (R161). -/
def Snapshot.laneWord (c : Snapshot) (j : Nat) : Word :=
  (c.multA.getD j 0 * c.multX.getD j 0 + c.multB.getD j 0) ^^^ c.xorX.getD c.idxXor 0

/-- XorAdvance on whole arrays, the elements at the cursor read from the snapshot itself (R162). -/
def Snapshot.xorAdvanced (w : Nat) (c : Snapshot) : Snapshot :=
  c.advanced w (c.xorA.getD c.idxXor 0) (c.xorX.getD c.idxXor 0) (c.xorB.getD c.idxXor 0)

theorem getElem?_eq_some_getD {xs : List Word} {i : Nat} (h : i < xs.length) :
    xs[i]? = some (xs.getD i 0) := by
  rw [List.getElem?_eq_getElem h, List.getD_eq_getElem xs 0 h]

theorem xorAdvance_eq {w : Nat} {c : Snapshot} (hs : c.Shaped w) (hq : c.idxXor < w) :
    xorAdvance w c = .ok (c.xorAdvanced w) := by
  obtain ⟨-, -, -, hx, ha, hb⟩ := hs
  exact xorAdvance_eq_ok.2 ⟨_, _, _, getElem?_eq_some_getD (ha ▸ hq), getElem?_eq_some_getD (hx ▸ hq),
    getElem?_eq_some_getD (hb ▸ hq), rfl⟩

/-- EmitOne on whole arrays with cursors in range: the lane's word, then the cursor alone or, at the
epoch's end, the generator as well. -/
theorem emitOne_eq {w : Nat} {c : Snapshot} (hs : c.Shaped w) (hc : c.CursorsBelow w) :
    emitOne w c = .ok (c.laneWord c.idxMult,
      if c.idxMult + 1 = w then (c.laneWritten (c.laneWord c.idxMult) 0).xorAdvanced w
      else c.laneWritten (c.laneWord c.idxMult) (c.idxMult + 1)) := by
  obtain ⟨hmx, hma, hmb, hxx, hxa, hxb⟩ := hs
  obtain ⟨hp, hq⟩ := hc
  refine emitOne_eq_ok.2 ⟨_, _, _, _, getElem?_eq_some_getD (hxx ▸ hq), getElem?_eq_some_getD (hma ▸ hp),
    getElem?_eq_some_getD (hmx ▸ hp), getElem?_eq_some_getD (hmb ▸ hp), rfl, ?_⟩
  by_cases hw : c.idxMult + 1 = w
  · have hshaped : (c.laneWritten (c.laneWord c.idxMult) 0).Shaped w :=
      ⟨by simpa [Snapshot.laneWritten] using hmx, hma, hmb, hxx, hxa, hxb⟩
    rw [if_pos hw]
    exact .inr ⟨hw, xorAdvance_eq hshaped hq⟩
  · rw [if_neg hw]
    exact .inl ⟨hw, rfl⟩

/-- Settles O30. -/
theorem emitOneAdvancesLaneThenGenerator : Obligations.EmitOneAdvancesLaneThenGenerator :=
  fun _ _ hs hc => emitOne_eq hs hc

/-! ## Walks of EmitOnes -/

/-- A walk of `a + b` EmitOnes is one of `a` and then one of `b`. -/
theorem emitWords_add_eq_ok {w a b : Nat} {c c' : Snapshot} {vs : List Word} :
    emitWords w (a + b) c = .ok (vs, c') ↔ ∃ us c1 ws, emitWords w a c = .ok (us, c1) ∧
      emitWords w b c1 = .ok (ws, c') ∧ vs = us ++ ws := by
  induction a generalizing c vs with
  | zero => simp [emitWords]
  | succ a ih =>
    rw [Nat.succ_add, emitWords_succ_eq_ok]
    simp only [ih, emitWords_succ_eq_ok]
    constructor
    · rintro ⟨v, c1, _, hone, ⟨us, c2, ws, hus, hws, rfl⟩, rfl⟩
      exact ⟨v :: us, c2, ws, ⟨v, c1, us, hone, hus, rfl⟩, hws, rfl⟩
    · rintro ⟨_, c2, ws, ⟨v, c1, us, hone, hus, rfl⟩, hws, rfl⟩
      exact ⟨v, c1, us ++ ws, hone, ⟨us, c2, ws, hus, hws, rfl⟩, rfl⟩

theorem emitWords_one_eq_ok {w : Nat} {c c' : Snapshot} {vs : List Word} :
    emitWords w 1 c = .ok (vs, c') ↔ ∃ v, emitOne w c = .ok (v, c') ∧ vs = [v] := by
  rw [emitWords_succ_eq_ok]
  simp [emitWords]

/-- One more EmitOne at the end of a walk. -/
theorem emitWords_append_one {w k : Nat} {c c1 c2 : Snapshot} {vs : List Word} {v : Word}
    (hwalk : emitWords w k c = .ok (vs, c1)) (hone : emitOne w c1 = .ok (v, c2)) :
    emitWords w (k + 1) c = .ok (vs ++ [v], c2) :=
  emitWords_add_eq_ok.2 ⟨vs, c1, [v], hwalk, emitWords_one_eq_ok.2 ⟨v, hone, rfl⟩, rfl⟩

/-- The snapshots along a walk: `c`, then those of `later`. -/
def walkFrom (c : Snapshot) (later : Nat → Snapshot) : Nat → Snapshot
  | 0 => c
  | k + 1 => later k

/-- A walk passes through one snapshot before each word and one after the last. -/
theorem exists_walk_of_emitWords {w n : Nat} {c c' : Snapshot} {words : List Word}
    (h : emitWords w n c = .ok (words, c')) :
    ∃ walk : Nat → Snapshot, walk 0 = c ∧ walk words.length = c' ∧
      ∀ (k : Nat) (hk : k < words.length), emitOne w (walk k) = .ok (words[k], walk (k + 1)) := by
  induction n generalizing c words with
  | zero =>
    cases h
    exact ⟨fun _ => c', rfl, rfl, nofun⟩
  | succ n ih =>
    obtain ⟨v, c1, ws, hone, hrest, rfl⟩ := emitWords_succ_eq_ok.1 h
    obtain ⟨later, rfl, hend, hsteps⟩ := ih hrest
    refine ⟨walkFrom c later, rfl, hend, fun k hk => ?_⟩
    cases k with
    | zero => exact hone
    | succ k => exact hsteps k (Nat.lt_of_succ_lt_succ hk)

/-! ## The cursors (R168) -/

/-- Adding one step and then `n` more passes the multiples of `w` that adding them at once does. -/
theorem div_add_mod_add_div {w : Nat} (hw : 0 < w) (a n : Nat) :
    a / w + (a % w + n) / w = (a + n) / w := by
  calc a / w + (a % w + n) / w
      = (w * (a / w) + (a % w + n)) / w := (Nat.mul_add_div hw _ _).symm
    _ = (a + n) / w := by rw [← Nat.add_assoc, Nat.div_add_mod]

/-- One EmitOne moves the lane cursor on around the `w` lanes, and the generator's at each wrap. -/
theorem emitOne_cursors {w : Nat} {c c' : Snapshot} {v : Word} (h : emitOne w c = .ok (v, c'))
    (hc : c.CursorsBelow w) :
    c'.idxMult = (c.idxMult + 1) % w ∧ c'.idxXor = (c.idxXor + (c.idxMult + 1) / w) % w := by
  obtain ⟨hp, hq⟩ := hc
  obtain ⟨_, _, _, _, -, -, -, -, -, ⟨hne, rfl⟩ | ⟨rfl, hadvance⟩⟩ := emitOne_eq_ok.1 h
  · have hlt : c.idxMult + 1 < w := by omega
    rw [Nat.mod_eq_of_lt hlt, Nat.div_eq_of_lt hlt]
    exact ⟨rfl, (Nat.mod_eq_of_lt hq).symm⟩
  · obtain ⟨_, _, _, -, -, -, rfl⟩ := xorAdvance_eq_ok.1 hadvance
    rw [Nat.mod_self, Nat.div_self (Nat.succ_pos _)]
    exact ⟨rfl, rfl⟩

theorem emitWords_cursors {w n : Nat} {c c' : Snapshot} {words : List Word}
    (h : emitWords w n c = .ok (words, c')) (hc : c.CursorsBelow w) :
    c'.idxMult = (c.idxMult + n) % w ∧ c'.idxXor = (c.idxXor + (c.idxMult + n) / w) % w := by
  have hw : 0 < w := Nat.zero_lt_of_lt hc.1
  induction n generalizing c words with
  | zero =>
    cases h
    rw [Nat.add_zero, Nat.mod_eq_of_lt hc.1, Nat.div_eq_of_lt hc.1, Nat.add_zero, Nat.mod_eq_of_lt hc.2]
    exact ⟨rfl, rfl⟩
  | succ n ih =>
    obtain ⟨v, c1, ws, hone, hrest, -⟩ := emitWords_succ_eq_ok.1 h
    obtain ⟨-, -, -, -, -, hbelow⟩ := emitOne_keeps hw hone
    obtain ⟨hp1, hq1⟩ := emitOne_cursors hone hc
    obtain ⟨hp, hq⟩ := ih hrest (hbelow hc)
    have hsum : c.idxMult + 1 + n = c.idxMult + (n + 1) := by omega
    rw [hp1] at hp hq
    rw [hq1] at hq
    constructor
    · rw [hp, Nat.mod_add_mod, hsum]
    · rw [hq, Nat.mod_add_mod, Nat.add_assoc, div_add_mod_add_div hw, hsum]

/-- Settles O36. -/
theorem cursorArithmetic : Obligations.CursorArithmetic := by
  intro w n c hs hc
  obtain ⟨words, c', h⟩ := emitWords_ok hs hc n
  obtain ⟨hlen, -⟩ := emitWords_keeps (Nat.zero_lt_of_lt hc.1) h
  exact ⟨words, c', h, hlen, emitWords_cursors h hc⟩

/-! ## The words of one epoch (R166, R167, R169) -/

/-- The words of `k` lanes from the cursor on, each lane's own step under the one mask. -/
def Snapshot.laneWords (c : Snapshot) (k : Nat) : List Word :=
  (List.range k).map fun j => c.laneWord (c.idxMult + j)

/-- The snapshot once the `k` lanes from the cursor on hold their next words. -/
def Snapshot.lanesWritten (c : Snapshot) (k : Nat) : Snapshot :=
  { c with
    multX := c.multX.mapIdx fun j x =>
      if c.idxMult ≤ j ∧ j < c.idxMult + k then c.laneWord j else x
    idxMult := c.idxMult + k }

theorem lanesWritten_zero (c : Snapshot) : c.lanesWritten 0 = c := by
  have harray : (c.lanesWritten 0).multX = c.multX := by
    refine List.ext_getElem (by simp [Snapshot.lanesWritten]) fun j _ _ => ?_
    have hnone : ¬ (c.idxMult ≤ j ∧ j < c.idxMult + 0) := by omega
    simp only [Snapshot.lanesWritten, List.getElem_mapIdx, if_neg hnone]
  exact congrArg (fun xs => { c with multX := xs }) harray

theorem lanesWritten_shaped {w : Nat} {c : Snapshot} (hs : c.Shaped w) (k : Nat) :
    (c.lanesWritten k).Shaped w := by
  simpa [Snapshot.Shaped, Snapshot.lanesWritten] using hs

/-- The lanes written so far leave the next lane's word as it was. -/
theorem laneWord_lanesWritten (c : Snapshot) (k : Nat) :
    (c.lanesWritten k).laneWord (c.idxMult + k) = c.laneWord (c.idxMult + k) := by
  simp [Snapshot.lanesWritten, Snapshot.laneWord, List.getD_eq_getElem?_getD]

theorem laneWritten_lanesWritten (c : Snapshot) (k : Nat) :
    (c.lanesWritten k).laneWritten (c.laneWord (c.idxMult + k)) (c.idxMult + k + 1) =
      c.lanesWritten (k + 1) := by
  have harray : (c.lanesWritten k).multX.set (c.idxMult + k) (c.laneWord (c.idxMult + k)) =
      (c.lanesWritten (k + 1)).multX := by
    refine List.ext_getElem (by simp [Snapshot.lanesWritten]) fun j _ _ => ?_
    simp only [Snapshot.lanesWritten, List.getElem_set, List.getElem_mapIdx]
    by_cases hj : c.idxMult + k = j
    · subst hj; simp
    · have hiff : (c.idxMult ≤ j ∧ j < c.idxMult + k) ↔ (c.idxMult ≤ j ∧ j < c.idxMult + (k + 1)) := by
        omega
      simp [hj, hiff]
  rw [Snapshot.laneWritten]
  exact congrArg (fun xs => { c with multX := xs, idxMult := c.idxMult + k + 1 }) harray

/-- Up to the last lane of an epoch a walk emits the lanes' words and writes the lanes alone. -/
theorem emitWords_within_epoch {w k : Nat} {c : Snapshot} (hs : c.Shaped w) (hq : c.idxXor < w)
    (hk : c.idxMult + k < w) : emitWords w k c = .ok (c.laneWords k, c.lanesWritten k) := by
  induction k with
  | zero => rw [lanesWritten_zero]; rfl
  | succ k ih =>
    have hone := emitOne_eq (lanesWritten_shaped hs k) (c := c.lanesWritten k)
      ⟨show c.idxMult + k < w by omega, hq⟩
    have hne : ¬ c.idxMult + k + 1 = w := by omega
    have hcursor : (c.lanesWritten k).idxMult = c.idxMult + k := rfl
    rw [hcursor, laneWord_lanesWritten, if_neg hne, laneWritten_lanesWritten] at hone
    rw [emitWords_append_one (ih (by omega)) hone]
    simp [Snapshot.laneWords, List.range_succ]

/-- Settles O37. -/
theorem maskIsFixedWithinAnEpoch : Obligations.MaskIsFixedWithinAnEpoch := by
  intro w k c hs hc hk
  refine ⟨_, _, emitWords_within_epoch hs hc.2 hk, by simp [Snapshot.laneWords], fun j hj => ?_,
    rfl, rfl, rfl⟩
  simp [Snapshot.laneWords, Snapshot.laneWord, hj]

/-- Once every lane from 0 on is written, the lanes hold the words of the epoch (R165). -/
theorem lanesWritten_multX_of_all {w : Nat} {c : Snapshot} (hs : c.Shaped w) (hp : c.idxMult = 0) :
    (c.lanesWritten w).multX = c.laneWords w := by
  obtain ⟨hlen, -⟩ := hs
  refine List.ext_getElem (by simp [Snapshot.lanesWritten, Snapshot.laneWords, hlen]) fun j hj _ => ?_
  have hjw : j < w := by simpa [Snapshot.lanesWritten, hlen] using hj
  simp [Snapshot.lanesWritten, Snapshot.laneWords, hp, hjw]

/-- An epoch from lane 0: the words of all lanes, then one advance of the generator. -/
theorem emitWords_epoch {w : Nat} {c : Snapshot} (hs : c.Shaped w) (hc : c.CursorsBelow w)
    (hp : c.idxMult = 0) :
    emitWords w w c =
      .ok (c.laneWords w, { c.lanesWritten w with idxMult := 0 }.xorAdvanced w) := by
  obtain ⟨k, rfl⟩ : ∃ k, w = k + 1 := ⟨w - 1, by have := hc.1; omega⟩
  have hk : c.idxMult + k < k + 1 := by omega
  have hone := emitOne_eq (lanesWritten_shaped hs k) (c := c.lanesWritten k) ⟨hk, hc.2⟩
  have hcursor : (c.lanesWritten k).idxMult = c.idxMult + k := rfl
  have hlast : c.idxMult + k + 1 = k + 1 := by omega
  rw [hcursor, laneWord_lanesWritten, if_pos hlast] at hone
  rw [emitWords_append_one (emitWords_within_epoch hs hc.2 hk) hone, ← laneWritten_lanesWritten]
  simp [Snapshot.laneWords, List.range_succ, Snapshot.laneWritten]

/-- Settles O38. -/
theorem fullEpochAdvancesTheGeneratorOnce : Obligations.FullEpochAdvancesTheGeneratorOnce := by
  intro w c hs hc hp
  exact ⟨_, _, emitWords_epoch hs hc hp, by simp [Snapshot.laneWords], rfl, rfl, rfl,
    lanesWritten_multX_of_all hs hp⟩

/-! ## The extraction commands (R160, R163, R164, R170) -/

/-- In READY a response without payload is its CODE with READY = 1. -/
theorem respond_nil_of_ready {s : State} (h : s.life = .ready) (c : Code) :
    respond c [] s = { s with respOut := s.respOut ++ [⟨codeNumber c ||| 0x100, true⟩] } := by
  rw [respond, h]
  cases c <;> rfl

theorem extractWith_of_nonneg {render : Word → Word} {amount : Word} {s : State} {words : List Word}
    {c : Snapshot} (hl : s.life = .ready) (hnonneg : 0 ≤ amount.toInt)
    (hemit : emitWords (wordCount s.cfgN.toNat) amount.toInt.toNat s.cur = .ok (words, c)) :
    extractWith render amount s = .next (respond .ok (words.map render) { s with cur := c }) :=
  extractWith_eq_next.2 (.inr (.inr ⟨hl, hnonneg, words, c, hemit, rfl⟩))

/-- The response of an extraction that succeeds (R85), `c` being the snapshot it leaves. -/
theorem respOut_of_drawn {s : State} (hl : s.life = .ready) (c : Snapshot) (payload : List Word) :
    (respond .ok payload { s with cur := c }).respOut = s.respOut ++ frameOf (0x100 :: payload) := by
  rw [respond_respOut, hl]
  rfl

/-- The empty walk leaves the snapshot, so amount 0 is answered in every READY state (R163). -/
theorem extractWith_zero (render : Word → Word) {s : State} (hl : s.life = .ready) :
    extractWith render 0 s = .next { s with respOut := s.respOut ++ [⟨0x100, true⟩] } := by
  rw [extractWith_of_nonneg (words := []) hl (by decide) rfl]
  exact congrArg _ (respond_nil_of_ready hl .ok)

/-- Settles O40. -/
theorem zeroAmountWritesNothing : Obligations.ZeroAmountWritesNothing :=
  fun _ hl => ⟨extractWith_zero id hl, extractWith_zero f64Bits hl⟩

/-- An operand flit with bit 63 set is a negative amount (R76, R164). -/
theorem extractWith_of_negative (render : Word → Word) {amount : Word} {s : State}
    (hl : s.life = .ready) (hneg : 0x8000000000000000 ≤ amount.toNat) :
    extractWith render amount s = .next { s with respOut := s.respOut ++ [⟨0x103, true⟩] } := by
  have hs64 : s64 amount < 0 := BitVec.toInt_neg_iff.2 (by omega)
  exact extractWith_eq_next.2 (.inr (.inl ⟨hl, hs64, (respond_nil_of_ready hl .invalidArgument).symm⟩))

/-- Settles O41. -/
theorem negativeAmountsFail : Obligations.NegativeAmountsFail :=
  fun _ _ hl hneg => ⟨extractWith_of_negative id hl hneg, extractWith_of_negative f64Bits hl hneg⟩

/-- An extraction of a non-negative amount from a READY state of the invariant, whatever it makes of
the words: they are those of that many EmitOnes in a row, and beside the response only the current
snapshot's `mult_x`, `xor_x` and cursors are written (R31, R160, R180). -/
theorem extractWith_walks (render : Word → Word) {amount : Word} {s : State} (hs : s.Inv)
    (hl : s.life = .ready) (hnonneg : 0 ≤ amount.toInt) :
    ∃ (t : State) (words : List Word) (walk : Nat → Snapshot),
      extractWith render amount s = .next t ∧ (words.length : Int) = amount.toInt ∧
      walk 0 = s.cur ∧ walk words.length = t.cur ∧
      (∀ (k : Nat) (h : k < words.length),
        emitOne (wordCount s.cfgN.toNat) (walk k) = .ok (words[k], walk (k + 1))) ∧
      t.respOut = s.respOut ++ frameOf (0x100 :: words.map render) ∧
      t.life = s.life ∧ t.cfgN = s.cfgN ∧ t.buf = s.buf ∧ t.prev = s.prev ∧ t.cmdIn = s.cmdIn ∧
      t.cur.multA = s.cur.multA ∧ t.cur.multB = s.cur.multB ∧ t.cur.xorA = s.cur.xorA ∧
      t.cur.xorB = s.cur.xorB := by
  have hcursors := hs.ready_cur_cursors hl
  obtain ⟨words, c, hemit⟩ := emitWords_ok hs.cur_shaped hcursors amount.toInt.toNat
  obtain ⟨hlen, -, hma, hmb, hxa, hxb, -⟩ := emitWords_keeps (Nat.zero_lt_of_lt hcursors.1) hemit
  obtain ⟨walk, hstart, hend, hsteps⟩ := exists_walk_of_emitWords hemit
  exact ⟨_, words, walk, extractWith_of_nonneg hl hnonneg hemit, by omega, hstart, hend, hsteps,
    respOut_of_drawn hl c _, rfl, rfl, rfl, rfl, rfl, hma, hmb, hxa, hxb⟩

/-- Settles O31. -/
theorem extractU64WalksTheStream : Obligations.ExtractU64WalksTheStream := by
  intro s amount hs hl hnonneg
  obtain ⟨t, words, walk, h⟩ := extractWith_walks id hs hl hnonneg
  rw [List.map_id] at h
  exact ⟨t, words, walk, h⟩

/-- The response of EXTRACT_U64 carries the words of the walk as they are (R160). -/
theorem execExtractU64_of_emitWords {amount : Word} {s : State} {words : List Word} {c : Snapshot}
    (hl : s.life = .ready) (hnonneg : 0 ≤ amount.toInt)
    (hemit : emitWords (wordCount s.cfgN.toNat) amount.toInt.toNat s.cur = .ok (words, c)) :
    exec (.extractU64 amount) s = .next (respond .ok words { s with cur := c }) := by
  have h := extractWith_of_nonneg (render := id) hl hnonneg hemit
  rwa [List.map_id] at h

/-- Settles O39: the walk of `a + b` EmitOnes, cut after the first `a`. -/
theorem consecutiveExtractionsConcatenate : Obligations.ConsecutiveExtractionsConcatenate := by
  intro s a b c hs hl ha hb hsum
  obtain ⟨words, c2, hall⟩ := emitWords_ok hs.cur_shaped (hs.ready_cur_cursors hl) c.toInt.toNat
  have hcut : c.toInt.toNat = a.toInt.toNat + b.toInt.toNat := by omega
  obtain ⟨wordsA, c1, wordsB, hA, hB, rfl⟩ := emitWords_add_eq_ok.1 (hcut ▸ hall)
  have hc : 0 ≤ c.toInt := by omega
  exact ⟨_, _, _, wordsA, wordsB,
    execExtractU64_of_emitWords hl ha hA,
    respOut_of_drawn hl c1 wordsA,
    execExtractU64_of_emitWords hl hb hB,
    respOut_of_drawn (s := respond .ok wordsA { s with cur := c1 }) hl c2 wordsB,
    execExtractU64_of_emitWords hl hc hall,
    respOut_of_drawn hl c2 (wordsA ++ wordsB), rfl⟩

end Sys2Proof.Machine

/-! PROOF. EXTRACT_F64 (44_float.md): it draws the stream of EXTRACT_U64 (R180, R181), and what the
pattern F64Bits is as a number (R182 to R184). -/

namespace Sys2Proof.Machine

/-! ## The extraction command (R180, R181) -/

/-- Settles O32. -/
theorem extractF64WalksTheStream : Obligations.ExtractF64WalksTheStream :=
  fun _ _ hs hl hnonneg => extractWith_walks f64Bits hs hl hnonneg

/-- A frame's flits carry the words it was made of, so the frame fixes them. -/
theorem frameOf_injective : Function.Injective frameOf := fun vs ws h => by
  rw [← frameOf_data vs, h, frameOf_data]

/-- What an extraction that answers with a payload drew: the walk's words, rendered, are that payload. -/
theorem extractWith_drawn {render : Word → Word} {amount : Word} {s t : State} {payload : List Word}
    (hl : s.life = .ready) (hnonneg : 0 ≤ amount.toInt) (h : extractWith render amount s = .next t)
    (hresp : t.respOut = s.respOut ++ frameOf (0x100 :: payload)) :
    ∃ words c, emitWords (wordCount s.cfgN.toNat) amount.toInt.toNat s.cur = .ok (words, c) ∧
      words.map render = payload ∧ t = respond .ok payload { s with cur := c } := by
  rcases extractWith_eq_next.1 h with ⟨hne, -⟩ | ⟨-, hneg, -⟩ | ⟨-, -, words, c, hemit, rfl⟩
  · exact absurd hl hne
  · exact absurd hnonneg (Int.not_le.2 hneg)
  · rw [respOut_of_drawn hl] at hresp
    have hpayload := (List.cons.inj (frameOf_injective (List.append_cancel_left hresp))).2
    exact ⟨words, c, hemit, hpayload, by rw [hpayload]⟩

/-- Settles O33: both commands run the same walk, and the frame of EXTRACT_U64 fixes its words. -/
theorem floatsDrawTheSameStream : Obligations.FloatsDrawTheSameStream := by
  intro s t amount words hl hnonneg h hresp
  obtain ⟨_, c, hemit, rfl, rfl⟩ := extractWith_drawn hl hnonneg h hresp
  rw [List.map_id]
  refine (extractWith_of_nonneg hl hnonneg hemit).trans (congrArg _ ?_)
  rw [← respOut_of_drawn hl c]
  rfl

/-! ## The pattern F64Bits (R182, R183) -/

/-- The fraction field R183 gives `m`: its bits below the leading one, moved up to bit 51. -/
def fractionField (m : Nat) : Nat := (m - 2 ^ m.log2) * 2 ^ (52 - m.log2)

/-- The leading one and the fraction field together are `m`, its leading one moved up to bit 52. -/
theorem hiddenBit_add_fractionField {m : Nat} (hm : m ≠ 0) (he : m.log2 ≤ 52) :
    2 ^ 52 + fractionField m = m * 2 ^ (52 - m.log2) := by
  have hself : 2 ^ m.log2 ≤ m := Nat.log2_self_le hm
  calc 2 ^ 52 + fractionField m
      = 2 ^ m.log2 * 2 ^ (52 - m.log2) + fractionField m := by
        rw [← Nat.pow_add, Nat.add_sub_cancel' he]
    _ = (2 ^ m.log2 + (m - 2 ^ m.log2)) * 2 ^ (52 - m.log2) := (Nat.add_mul ..).symm
    _ = m * 2 ^ (52 - m.log2) := by rw [Nat.add_sub_cancel' hself]

theorem fractionField_lt {m : Nat} (hm : m ≠ 0) (he : m.log2 ≤ 52) : fractionField m < 2 ^ 52 := by
  have hlt : m * 2 ^ (52 - m.log2) < 2 ^ (m.log2 + 1) * 2 ^ (52 - m.log2) :=
    Nat.mul_lt_mul_of_pos_right Nat.lt_log2_self (Nat.two_pow_pos _)
  rw [← hiddenBit_add_fractionField hm he, ← Nat.pow_add,
    show m.log2 + 1 + (52 - m.log2) = 53 by omega] at hlt
  omega

theorem low53_toNat (w : Word) : (low53 w).toNat = w.toNat % 2 ^ 53 := by
  rw [low53, BitVec.toNat_and]
  exact Nat.and_two_pow_sub_one_eq_mod w.toNat 53

theorem log2_low53_le (w : Word) : (low53 w).toNat.log2 ≤ 52 := by
  have hlt : (low53 w).toNat < 2 ^ 53 := low53_toNat w ▸ Nat.mod_lt _ (Nat.two_pow_pos 53)
  by_cases hm : (low53 w).toNat = 0
  · simp [hm]
  · exact Nat.le_of_lt_succ ((Nat.log2_lt hm).2 hlt)

/-- The exponent part of R183's pattern keeps all its bits in the shift. -/
theorem exponentPart_toNat {e : Nat} (he : e ≤ 52) :
    (BitVec.ofNat 64 (e + 970) <<< 52).toNat = (e + 970) <<< 52 := by
  have hfits : (e + 970) <<< 52 < 2 ^ 64 := by rw [Nat.shiftLeft_eq]; omega
  rw [BitVec.toNat_shiftLeft, BitVec.toNat_ofNat, Nat.mod_eq_of_lt (a := e + 970) (by omega),
    Nat.mod_eq_of_lt hfits]

/-- The fraction part of R183's pattern neither borrows nor shifts a bit out. -/
theorem fractionPart_toNat {m : Word} (hm : m.toNat ≠ 0) (he : m.toNat.log2 ≤ 52) :
    ((m - BitVec.ofNat 64 (2 ^ m.toNat.log2)) <<< (52 - m.toNat.log2)).toNat =
      fractionField m.toNat := by
  have hself := Nat.log2_self_le hm
  have hone : (BitVec.ofNat 64 (2 ^ m.toNat.log2)).toNat = 2 ^ m.toNat.log2 :=
    Nat.mod_eq_of_lt (hself.trans_lt m.isLt)
  have hle : BitVec.ofNat 64 (2 ^ m.toNat.log2) ≤ m := BitVec.le_def.2 (hone.symm ▸ hself)
  rw [BitVec.toNat_shiftLeft, BitVec.toNat_sub_of_le hle, hone, Nat.shiftLeft_eq]
  exact Nat.mod_eq_of_lt ((fractionField_lt hm he).trans (by decide))

theorem f64Bits_of_zero {w : Word} (hm : (low53 w).toNat = 0) : f64Bits w = 0 :=
  if_pos (BitVec.eq_of_toNat_eq hm)

/-- F64Bits of a nonzero `m` as a number: the biased exponent from bit 52 up, the fraction field below
it (R183). -/
theorem f64Bits_toNat {w : Word} (hm : (low53 w).toNat ≠ 0) :
    (f64Bits w).toNat =
      ((low53 w).toNat.log2 + 970) * 2 ^ 52 + fractionField (low53 w).toNat := by
  have hne : low53 w ≠ 0 := fun h => hm (congrArg BitVec.toNat h)
  have he := log2_low53_le w
  rw [f64Bits, if_neg hne, BitVec.toNat_or, exponentPart_toNat he, fractionPart_toNat hm he,
    ← Nat.shiftLeft_add_eq_or_of_lt (fractionField_lt hm he), Nat.shiftLeft_eq]

/-- The fields of F64Bits of a nonzero `m`: sign and exponent above bit 52, the fraction below it. -/
theorem f64Bits_fields {w : Word} (hm : (low53 w).toNat ≠ 0) :
    (f64Bits w).toNat / 2 ^ 52 = (low53 w).toNat.log2 + 970 ∧
      (f64Bits w).toNat % 2 ^ 52 = fractionField (low53 w).toNat := by
  have hfrac := fractionField_lt hm (log2_low53_le w)
  have hbits := f64Bits_toNat hm
  omega

/-- The exponent field undoes the shift that moved the leading one of `m` to bit 52. -/
theorem hiddenBit_add_fractionField_mul {m : Nat} (hm : m ≠ 0) (he : m.log2 ≤ 52) :
    (2 ^ 52 + fractionField m) * 2 ^ (m.log2 + 970) = m * 2 ^ 1022 := by
  have hshift : 52 - m.log2 + (m.log2 + 970) = 1022 := by omega
  rw [hiddenBit_add_fractionField hm he, Nat.mul_assoc, ← hshift,
    Nat.pow_add 2 (52 - m.log2)]

/-- Settles O34. -/
theorem f64BitsHasTheExactValue : Obligations.F64BitsHasTheExactValue := by
  intro w
  rw [← low53_toNat]
  refine ⟨f64Bits_of_zero, fun hm => ?_⟩
  obtain ⟨hexp, hfrac⟩ := f64Bits_fields hm
  have he := log2_low53_le w
  have hsign : (f64Bits w).getLsbD 63 = false := Nat.testBit_lt_two_pow (by omega)
  rw [hexp, hfrac, Nat.mod_eq_of_lt (by omega)]
  exact ⟨hsign, hiddenBit_add_fractionField_mul hm he⟩

/-! ## The range of the results (R184) -/

/-- F64Bits reads nothing above bit 52 (R182). -/
theorem f64Bits_congr {v w : Word} (h : low53 v = low53 w) : f64Bits v = f64Bits w := by
  rw [f64Bits, f64Bits, h]

/-- Settles O35: the exponent field of a nonzero result lies between those of `2^-53` and of
`1 - 2^-53`. -/
theorem f64BitsRange : Obligations.F64BitsRange := by
  refine ⟨fun w => ?_, by decide, by decide, fun w hw => ?_⟩
  · by_cases hm : (low53 w).toNat = 0
    · exact .inl (f64Bits_of_zero hm)
    · obtain ⟨hexp, -⟩ := f64Bits_fields hm
      have he := log2_low53_le w
      right
      omega
  · have hlow : low53 w = low53 0x1FFFFFFFFFFFFF :=
      BitVec.eq_of_toNat_eq ((low53_toNat w).trans hw)
    exact (f64Bits_congr hlow).trans (by decide)

end Sys2Proof.Machine

/-! PROOF. The bank (45_bank.md): the two copies (R190, R192), runs of commands, and that RESTORE
replays the stream from the last checkpoint (R193). -/

namespace Sys2Proof.Machine

/-! ## The two copies (R190, R192) -/

/-- Settles O42. -/
theorem checkpointCopiesCurIntoPrev : Obligations.CheckpointCopiesCurIntoPrev := fun s hl =>
  execCheckpoint_eq_next.2 (.inr ⟨hl,
    (respond_nil_of_ready (s := { s with prev := s.cur }) hl .ok).symm⟩)

/-- Settles O43. -/
theorem restoreCopiesPrevIntoCur : Obligations.RestoreCopiesPrevIntoCur := fun s hl =>
  execRestore_eq_next.2 (.inr ⟨hl,
    (respond_nil_of_ready (s := { s with cur := s.prev }) hl .ok).symm⟩)

/-! ## Runs of commands (R61) -/

theorem runCommands_cons (i : Instr) (is : List Instr) (s : State) :
    runCommands (i :: is) s = andThen (exec i s) (runCommands is) := by
  rw [runCommands]
  cases exec i s <;> rfl

/-- A command that answers alike whatever the ports hold only appends to the response port. -/
theorem IgnoresPorts.respOut_eq {run : State → Result} (hrun : IgnoresPorts run) {s t : State}
    (h : run s = .next t) : t.respOut = s.respOut ++ newFlits s t := by
  have hsame := h.symm.trans (hrun s t s.cmdIn s.respOut h)
  exact congrArg State.respOut (Host.Outcome.next.inj hsame)

/-- One command after another adds the flits of the one, then those of the other. -/
theorem newFlits_trans {s t u : State} (hst : t.respOut = s.respOut ++ newFlits s t)
    (htu : u.respOut = t.respOut ++ newFlits t u) :
    newFlits s u = newFlits s t ++ newFlits t u :=
  newFlits_of_append (by rw [← List.append_assoc, ← hst, htu])

theorem IgnoresPorts.sequence {run next : State → Result} (hrun : IgnoresPorts run)
    (hnext : IgnoresPorts next) : IgnoresPorts fun s => andThen (run s) next := by
  intro s u events sent h
  obtain ⟨t, hst, htu⟩ := andThen_eq_next.1 h
  rw [newFlits_trans (hrun.respOut_eq hst) (hnext.respOut_eq htu), ← List.append_assoc]
  exact andThen_eq_next.2 ⟨_, hrun s t events sent hst, hnext t u events _ htu⟩

/-- A run of commands answers alike whatever the ports hold (R58, R61). -/
theorem runCommands_ignoresPorts (is : List Instr) : IgnoresPorts (runCommands is) := by
  induction is with
  | nil =>
    rintro s t events sent ⟨⟩
    rw [newFlits_of_append (List.append_nil _).symm, List.append_nil]
    rfl
  | cons i is ih =>
    have hcons : runCommands (i :: is) = fun s => andThen (exec i s) (runCommands is) :=
      funext (runCommands_cons i is)
    rw [hcons]
    exact IgnoresPorts.sequence (commandsIgnoreThePorts i) ih

/-! ## Extractions and readouts (R31) -/

/-- An extraction answers in every READY state of the invariant, with an error or with its walk. -/
theorem extractWith_answers (render : Word → Word) (amount : Word) {s : State} (hs : s.Inv)
    (hl : s.life = .ready) : Answers (extractWith render amount s) := by
  by_cases hneg : s64 amount < 0
  · exact ⟨_, extractWith_eq_next.2 (.inr (.inl ⟨hl, hneg, rfl⟩))⟩
  · obtain ⟨words, c, hemit⟩ :=
      emitWords_ok hs.cur_shaped (hs.ready_cur_cursors hl) amount.toInt.toNat
    exact ⟨_, extractWith_of_nonneg hl (Int.not_lt.1 hneg) hemit⟩

/-- READ_STATE answers in every READY state of the invariant: no byte or element lacks a value. -/
theorem execReadState_answers {s : State} (hs : s.Inv) (hl : s.life = .ready) :
    Answers (execReadState s) := by
  obtain ⟨-, hmod, -⟩ := legalSize_iff.1 (hs.ready_size hl)
  obtain ⟨ring, hring⟩ := (Memory.Holds.of_addresses hs.buf_addresses).ring
  have hpayload := readStatePayload_ok hs.cur_shaped hring hmod
  exact ⟨_, execReadState_eq_next.2 (.inr ⟨hl, _, hpayload, rfl⟩)⟩

theorem exec_answers_of_draws {i : Instr} {s : State} (hi : Draws i) (hs : s.Inv)
    (hl : s.life = .ready) : Answers (exec i s) := by
  cases i with
  | construct => exact hi.elim
  | extractU64 amount => exact extractWith_answers id amount hs hl
  | extractF64 amount => exact extractWith_answers f64Bits amount hs hl
  | checkpoint => exact hi.elim
  | restore => exact hi.elim
  | readState => exact execReadState_answers hs hl
  | getStatus => exact ⟨_, execGetStatus_eq_next.2 rfl⟩

/-- An extraction or a readout writes the current snapshot and the response port at most (R31). -/
theorem CommandEffect.of_draws {i : Instr} {s t : State} (h : CommandEffect s i t) (hi : Draws i) :
    ∃ c sent, t = { s with cur := c, respOut := sent } := by
  cases h with
  | answered => exact ⟨s.cur, _, rfl⟩
  | constructed => exact hi.elim
  | drawn => exact ⟨_, _, rfl⟩
  | checkpointed => exact hi.elim
  | restored => exact hi.elim

/-- Extractions and readouts from a READY state of the invariant all answer, and leave everything
but the current snapshot and the response port. -/
theorem runCommands_of_draws {is : List Instr} {s : State} (hs : s.Inv) (hl : s.life = .ready)
    (hdraws : ∀ i ∈ is, Draws i) :
    ∃ c sent, runCommands is s = .next { s with cur := c, respOut := sent } := by
  induction is generalizing s with
  | nil => exact ⟨s.cur, s.respOut, rfl⟩
  | cons i is ih =>
    obtain ⟨hi, his⟩ := List.forall_mem_cons.1 hdraws
    obtain ⟨t, hexec⟩ := exec_answers_of_draws hi hs hl
    have heffect := exec_effect hexec
    have ht := heffect.inv hs
    obtain ⟨c, sent, rfl⟩ := heffect.of_draws hi
    obtain ⟨c', sent', hrun⟩ := ih ht hl his
    exact ⟨c', sent', by rw [runCommands_cons, hexec, andThen_next, hrun]⟩

/-! ## RESTORE (R193) -/

/-- At a checkpoint RESTORE undoes any change of the current snapshot (R30, R192). -/
theorem exec_restore_of_checkpoint {s : State} (hl : s.life = .ready) (hcheckpoint : s.prev = s.cur)
    (c : Snapshot) (sent : List Flit) :
    exec .restore { s with cur := c, respOut := sent } =
      .next { s with respOut := sent ++ [⟨0x100, true⟩] } :=
  calc
    exec .restore { s with cur := c, respOut := sent } =
        .next { s with cur := s.prev, respOut := sent ++ [⟨0x100, true⟩] } :=
      restoreCopiesPrevIntoCur _ hl
    _ = .next { s with respOut := sent ++ [⟨0x100, true⟩] } := by rw [hcheckpoint]

/-- Settles O44: what lies between writes only `cur` and the response port, so RESTORE leaves the
checkpoint but for earlier response flits, and no command reads those. -/
theorem restoreReplaysTheStream : Obligations.RestoreReplaysTheStream := by
  intro s between after hs hl hcheckpoint hbetween hafter
  obtain ⟨c, sent, hrun⟩ := runCommands_of_draws hs hl hbetween
  obtain ⟨d, sent', hfirst⟩ := runCommands_of_draws hs hl hafter
  have hrestore := exec_restore_of_checkpoint hl hcheckpoint c sent
  have hagain := runCommands_ignoresPorts after _ _ s.cmdIn (sent ++ [⟨0x100, true⟩]) hfirst
  exact ⟨_, _, _, _, hrun, hrestore, hfirst, hagain, (newFlits_of_append rfl).symm, rfl, rfl, rfl⟩

end Sys2Proof.Machine

/-! PROOF. The readouts of 46_readout.md: what GET_STATUS and READ_STATE answer (R201, R202, R206) and that
neither touches a later command (R207), then the schedule of the host's dump (R212). -/

namespace Sys2Proof.Machine

/-! ## GET_STATUS (R22, R206) -/

theorem getLsbD_lifeBit (l : Life) (i : Nat) :
    (lifeBit l).getLsbD i = (decide (i = 0) && decide (l = .ready)) := by
  cases l with
  | uninit => simp [lifeBit]
  | ready => simp [lifeBit, BitVec.getLsbD_one]

/-- The bits of the status register: LIFE in bit 0, the size from bit 32 on. -/
theorem getLsbD_statusRegister (l : Life) (n : BitVec 32) {i : Nat} (hi : i < 64) :
    (statusRegister (lifeBit l) (n.setWidth 64)).getLsbD i =
      if i < 32 then decide (i = 0) && decide (l = .ready) else n.getLsbD (i - 32) := by
  rw [statusRegister, BitVec.getLsbD_or, BitVec.getLsbD_shiftLeft, BitVec.getLsbD_setWidth,
    getLsbD_lifeBit]
  split
  next hlow => simp [hlow]
  next hhigh => simp [hhigh, hi, show i ≠ 0 by omega, show i - 32 < 64 by omega]

/-- Settles O46. -/
theorem getStatusReportsLifeSizeAndCapacity : Obligations.GetStatusReportsLifeSizeAndCapacity := by
  intro s
  refine ⟨statusRegister (lifeBit s.life) (s.cfgN.setWidth 64), ?_, ?_, ?_, ?_, ?_, le_nMax _,
    nMax_lt _⟩
  · have hmax : (BitVec.ofNat 32 Config.params.nMax).setWidth 64 =
        (BitVec.ofNat 64 Config.params.nMax : Word) :=
      BitVec.eq_of_toNat_eq (by have := nMax_lt Config.params; simp; omega)
    have hstatus : statusFlit .ok s.life = if s.life = .ready then 0x100 else 0x000 := by
      cases s.life <;> rfl
    rw [← hmax, ← hstatus]
    exact execGetStatus_eq_next.2 rfl
  · rw [getLsbD_statusRegister _ _ (by decide)]
    simp
  · refine BitVec.eq_of_getLsbD_eq fun i hi => ?_
    rw [BitVec.getLsbD_extractLsb', getLsbD_statusRegister _ _ (by omega), if_pos (by omega)]
    simp
  · refine BitVec.eq_of_getLsbD_eq fun i hi => ?_
    rw [BitVec.getLsbD_extractLsb', getLsbD_statusRegister _ _ (by omega), if_neg (by omega)]
    simp [hi]
  · unfold Params.nMax; omega

/-! ## READ_STATE -/

/-- Flit `k` of the buffer part holds byte `8k + t` in bits `[8t+7 : 8t]` (R202). -/
theorem bufferFlits_bytes {n : Nat} {m : Memory} {flits : List Word}
    (h : bufferFlits n m = .ok flits) :
    flits.length = n / 8 ∧ ∀ k < n / 8, ∀ t < 8,
      (flits[k]?.map fun f => byteOf f t) = readByte m (8 * k + t) := by
  obtain ⟨hlen, hflits⟩ := mapM_eq_ok.1 h
  rw [List.length_range] at hlen
  refine ⟨hlen, fun k hk t ht => ?_⟩
  obtain ⟨flit, hget, hread⟩ := hflits k k (List.getElem?_range hk)
  cases hmem : memRead n m (8 * k) 8 with
  | error f => rw [hmem] at hread; cases hread
  | ok bytes =>
    rw [hmem] at hread
    cases hread
    obtain ⟨-, hbytes, hbyte⟩ := memRead_eq_ok.1 hmem
    rw [hget, hbyte t ht, List.getElem?_eq_getElem (by omega), Option.map_some,
      byteOf_packBytes (by omega) (by omega)]

/-- Settles O45. -/
theorem readStateReturnsTheWholeState : Obligations.ReadStateReturnsTheWholeState := by
  intro s hs hl
  obtain ⟨-, hmod, -⟩ := legalSize_iff.1 (hs.ready_size hl)
  obtain ⟨ring, hring⟩ := (Memory.Holds.of_addresses hs.buf_addresses).ring
  have hpayload := readStatePayload_ok hs.cur_shaped hring hmod
  obtain ⟨hlen, hbytes⟩ := bufferFlits_bytes (hring.wordView .le hmod)
  have hcur : s.cur.Shaped (s.cfgN.toNat / 8) := hs.cur_shaped
  obtain ⟨hmultX, hmultA, hmultB, hxorX, hxorA, hxorB⟩ := hcur
  refine ⟨ringWords .le ring, execReadState_eq_next.2 (.inr ⟨hl, _, hpayload, ?_⟩), ?_, hlen, hbytes⟩
  · rw [respond, hl]
    rfl
  · simp only [List.length_cons, List.length_append, List.length_nil, hlen, hmultX, hmultA, hmultB,
      hxorX, hxorA, hxorB]
    omega

/-! ## Readouts and the commands after them (R203, R207) -/

/-- A readout leaves everything but the response port (R203, R206). -/
theorem eq_respond_of_readout {r : Instr} {s t : State} (hr : r = .readState ∨ r = .getStatus)
    (h : exec r s = .next t) : ∃ c payload, t = respond c payload s := by
  rcases hr with rfl | rfl
  · rcases execReadState_eq_next.1 h with ⟨-, rfl⟩ | ⟨-, payload, -, rfl⟩
    · exact ⟨_, _, rfl⟩
    · exact ⟨_, _, rfl⟩
  · exact ⟨_, _, execGetStatus_eq_next.1 h⟩

/-- A command that answers alike whatever the ports hold leaves the command port. -/
theorem IgnoresPorts.cmdIn_eq {run : State → Result} (hrun : IgnoresPorts run) {s t : State}
    (h : run s = .next t) : t.cmdIn = s.cmdIn := by
  have hsame := h.symm.trans (hrun s t s.cmdIn s.respOut h)
  exact (congrArg State.cmdIn (Host.Outcome.next.inj hsame) :)

/-- Settles O47: a readout only puts flits on the response port, and no command reads those. -/
theorem readoutsChangeNoOtherResponse : Obligations.ReadoutsChangeNoOtherResponse := by
  intro s t u r i hr hreadout h
  obtain ⟨c, payload, rfl⟩ := eq_respond_of_readout hr hreadout
  have hcmd : u.cmdIn = s.cmdIn := IgnoresPorts.cmdIn_eq (commandsIgnoreThePorts i) h
  refine ⟨_, commandsIgnoreThePorts i s u s.cmdIn (respond c payload s).respOut h,
    newFlits_of_append rfl, ?_⟩
  rw [← hcmd]

/-! ## The dump schedule (R212) -/

/-- The host reads the payload of a success (R85). -/
theorem successPayload_of_success {s t : State} {payload : List Word}
    (h : t.respOut = s.respOut ++ frameOf (0x100 :: payload)) :
    successPayload (newFlits s t) = some payload := by
  rw [newFlits_of_append h, successPayload_frameOf, if_pos (by decide)]

theorem statusFlit_code_ne_zero {c : Code} (hc : c ≠ .ok) (l : Life) :
    (statusFlit c l).setWidth 8 ≠ (0 : Byte) := by
  cases c with
  | ok => exact absurd rfl hc
  | invalidSeed | invalidConfig | invalidArgument | invalidState => cases l <;> decide

/-- The host reads no payload from an error response (R246). -/
theorem successPayload_of_error {s t : State} {c : Code} {l : Life} (hc : c ≠ .ok)
    (h : t.respOut = s.respOut ++ [⟨statusFlit c l, true⟩]) :
    successPayload (newFlits s t) = none := by
  rw [newFlits_of_append h, successPayload, if_neg (statusFlit_code_ne_zero hc l)]

/-- A call after which R212 asks for a state block: what the host writes comes from the two payloads. -/
theorem hostCall_of_writesBlock {i : Instr} {s t u : State} {payload state : List Word}
    (hi : writesBlock i = true) (h : exec i s = .next t)
    (hresp : t.respOut = s.respOut ++ frameOf (0x100 :: payload)) (hread : exec .readState t = .next u)
    (hstate : u.respOut = t.respOut ++ frameOf (0x100 :: state)) :
    hostCall i s = .next (dumpParts i payload state, u) :=
  hostCall_eq_next.2 ⟨t, h, .inr ⟨payload, successPayload_of_success hresp, .inr ⟨hi, hread, by
    rw [successPayload_of_success hstate]⟩⟩⟩

theorem hostCall_of_not_writesBlock {i : Instr} {s t : State} (hi : writesBlock i = false)
    (h : exec i s = .next t) : hostCall i s = .next ([], t) := by
  refine hostCall_eq_next.2 ⟨t, h, ?_⟩
  cases successPayload (newFlits s t) with
  | none => exact .inl ⟨rfl, rfl, rfl⟩
  | some payload => exact .inr ⟨payload, rfl, .inl ⟨hi, rfl, rfl⟩⟩

theorem hostCall_of_error {i : Instr} {s t : State} {c : Code} (h : exec i s = .next t) (hc : c ≠ .ok)
    (hresp : t.respOut = s.respOut ++ [⟨statusFlit c s.life, true⟩]) :
    hostCall i s = .next ([], t) :=
  hostCall_eq_next.2 ⟨t, h, .inl ⟨successPayload_of_error hc hresp, rfl, rfl⟩⟩

/-- A session writes its first call's text, then that of the calls after it. -/
theorem hostSession_cons_eq_next {i : Instr} {is : List Instr} {s u : State} {parts : List DumpPart} :
    hostSession (i :: is) s = .next (parts, u) ↔ ∃ first t rest, hostCall i s = .next (first, t) ∧
      hostSession is t = .next (rest, u) ∧ parts = first ++ rest := by
  simp only [hostSession, andThen_eq_next, Host.Outcome.next.injEq, Prod.mk.injEq, Prod.exists]
  constructor
  · rintro ⟨first, t, hcall, rest, v, hrest, rfl, rfl⟩
    exact ⟨first, t, rest, hcall, hrest, rfl⟩
  · rintro ⟨first, t, rest, hcall, hrest, rfl⟩
    exact ⟨first, t, hcall, rest, u, hrest, rfl, rfl⟩

theorem hostSession_append {calls later : List Instr} {s t u : State} {written after : List DumpPart}
    (hcalls : hostSession calls s = .next (written, t))
    (hlater : hostSession later t = .next (after, u)) :
    hostSession (calls ++ later) s = .next (written ++ after, u) := by
  induction calls generalizing s written with
  | nil =>
    cases hcalls
    exact hlater
  | cons i is ih =>
    obtain ⟨first, v, rest, hcall, hrest, rfl⟩ := hostSession_cons_eq_next.1 hcalls
    exact hostSession_cons_eq_next.2 ⟨first, v, rest ++ after, hcall, ih hrest,
      List.append_assoc first rest after⟩

/-- Settles O58. -/
theorem hostDumpSchedule : Obligations.HostDumpSchedule := by
  refine ⟨?_, ?_, fun _ _ _ _ _ _ _ => hostSession_append⟩
  · rintro i s t u payload state output h hresp hread hstate
      (⟨⟨n, seed, rfl⟩, rfl⟩ | ⟨⟨amount, rfl⟩, rfl⟩ | ⟨⟨amount, rfl⟩, rfl⟩)
    · exact hostCall_of_writesBlock rfl h hresp hread hstate
    · exact hostCall_of_writesBlock rfl h hresp hread hstate
    · exact hostCall_of_writesBlock rfl h hresp hread hstate
  · rintro i s t h (hi | ⟨c, hc, hresp⟩)
    · exact hostCall_of_not_writesBlock (by rcases hi with rfl | rfl | rfl | rfl <;> rfl) h
    · exact hostCall_of_error h hc hresp

end Sys2Proof.Machine

/-! PROOF. The host's dump (46_readout.md R210, R211, R214): the readers of digits, fields, lines and
state blocks give back what was rendered. That no field holds a comma or a line feed follows from its
being read. -/

namespace Sys2Proof.Machine

/-! ## Numbers as digits (R86, R210, R211) -/

/-- The number a run of digits states, most significant first; the empty run states 0. -/
def digitsValue (base : Nat) (digit : Char → Option Nat) (cs : List Char) : Option Nat :=
  cs.foldlM (fun acc c => (digit c).map (base * acc + ·)) 0

theorem parseDigits_of_ne_nil (base : Nat) (digit : Char → Option Nat) {cs : List Char} (h : cs ≠ []) :
    parseDigits base digit cs = digitsValue base digit cs := by
  cases cs with
  | nil => exact absurd rfl h
  | cons c cs => rfl

theorem digitsValue_append_digit {base : Nat} {digit : Char → Option Nat} {cs : List Char} {c : Char}
    {v d : Nat} (hv : digitsValue base digit cs = some v) (hd : digit c = some d) :
    digitsValue base digit (cs ++ [c]) = some (base * v + d) := by
  rw [digitsValue] at hv
  simp [digitsValue, List.foldlM_append, hv, hd]

/-- The two fixed-width renderings append the last digit of a number to the text of the others; such a
text states the number if its width holds it. -/
theorem parseDigits_fixedWidth {base : Nat} {digit : Char → Option Nat} {text : Nat → Nat → List Char}
    (hzero : ∀ v, text 0 v = [])
    (hsucc : ∀ k v, text (k + 1) v = text k (v / base) ++ [hexChar (v % base)])
    (hdigit : ∀ d < base, digit (hexChar d) = some d) {k v : Nat} (hv : v < base ^ (k + 1)) :
    parseDigits base digit (text (k + 1) v) = some v := by
  rw [parseDigits_of_ne_nil _ _ (by simp [hsucc])]
  generalize k + 1 = width at hv
  induction width generalizing v with
  | zero =>
    rw [hzero, Nat.lt_one_iff.1 hv]
    rfl
  | succ width ih =>
    have hbase : 0 < base := Nat.pos_of_ne_zero fun h => by simp [h] at hv
    have hrest := ih (Nat.div_lt_of_lt_mul (Nat.pow_succ' ▸ hv))
    rw [hsucc, digitsValue_append_digit hrest (hdigit _ (Nat.mod_lt _ hbase)), Nat.div_add_mod]

theorem parseDigits_hexText {k v : Nat} (hv : v < 16 ^ (k + 1)) :
    parseDigits 16 hexDigit (hexText (k + 1) v) = some v :=
  parseDigits_fixedWidth (fun _ => rfl) (fun _ _ => rfl) (by decide) hv

theorem parseDigits_decDigitsText {k v : Nat} (hv : v < 10 ^ (k + 1)) :
    parseDigits 10 decDigit (decDigitsText (k + 1) v) = some v :=
  parseDigits_fixedWidth (fun _ => rfl) (fun _ _ => rfl) (by decide) hv

theorem decDigit_digitChar : ∀ d < 10, decDigit d.digitChar = some d := by decide

/-- A decimal without leading zeros states its number (R210). -/
theorem parseDigits_decText (v : Nat) : parseDigits 10 decDigit (decText v) = some v := by
  rw [decText, parseDigits_of_ne_nil _ _ Nat.toDigits_ne_nil]
  induction v using Nat.strongRecOn with
  | ind v ih =>
    by_cases hv : v < 10
    · rw [Nat.toDigits_of_lt_base hv]
      simpa using digitsValue_append_digit (base := 10) (cs := []) rfl (decDigit_digitChar v hv)
    · have hrest := ih (v / 10) (by omega)
      rw [Nat.toDigits_of_base_le (by decide) (by omega),
        digitsValue_append_digit hrest (decDigit_digitChar _ (Nat.mod_lt _ (by decide))),
        Nat.div_add_mod]

/-- A text that states a number is made of digits alone. -/
theorem not_mem_of_parseDigits {base v : Nat} {digit : Char → Option Nat} {cs : List Char} {c : Char}
    (h : parseDigits base digit cs = some v) (hc : digit c = none) : c ∉ cs := by
  have hne : cs ≠ [] := by rintro rfl; cases h
  rw [parseDigits_of_ne_nil _ _ hne, digitsValue] at h
  clear hne
  generalize 0 = acc at h
  induction cs generalizing acc with
  | nil => exact List.not_mem_nil
  | cons d ds ih =>
    rw [List.foldlM_cons] at h
    obtain ⟨acc', hd, hds⟩ := Option.bind_eq_some_iff.1 h
    refine List.not_mem_cons_of_ne_of_not_mem ?_ (ih acc' hds)
    rintro rfl
    rw [hc] at hd
    cases hd

/-! ## Fields (R210, R211) -/

/-- A reader of fields reads no text that the comma or the line feed would cut, and not the empty text. -/
def ReadsFields {α : Type} (field : List Char → Option α) : Prop :=
  ∀ t v, field t = some v → t ≠ [] ∧ ',' ∉ t ∧ '\n' ∉ t

theorem readsFields_parseDigits {base : Nat} {digit : Char → Option Nat} (hcomma : digit ',' = none)
    (hfeed : digit '\n' = none) : ReadsFields (parseDigits base digit) := by
  intro t v h
  refine ⟨?_, not_mem_of_parseDigits h hcomma, not_mem_of_parseDigits h hfeed⟩
  rintro rfl
  cases h

theorem ReadsFields.map {α β : Type} {field : List Char → Option α} (h : ReadsFields field)
    (f : α → β) : ReadsFields fun t => (field t).map f := by
  intro t v ht
  obtain ⟨a, ha, -⟩ := Option.map_eq_some_iff.1 ht
  exact h t a ha

theorem readsFields_parseWord : ReadsFields parseWord :=
  (readsFields_parseDigits (by decide) (by decide)).map _

theorem readsFields_parseByte : ReadsFields parseByte :=
  (readsFields_parseDigits (by decide) (by decide)).map _

theorem readsFields_parseDecimal : ReadsFields parseDecimal := by
  intro t v h
  unfold parseDecimal at h
  split at h
  next digits =>
    obtain ⟨-, hcomma, hfeed⟩ :=
      readsFields_parseDigits (base := 10) (digit := decDigit) (by decide) (by decide) _ _ h
    simp [hcomma, hfeed]
  next => cases h

theorem parseWord_hexText (v : Word) : parseWord (hexText 16 v.toNat) = some v := by
  rw [parseWord, parseDigits_hexText v.isLt, Option.map_some, BitVec.ofNat_toNat, BitVec.setWidth_eq]

theorem parseByte_hexText (v : Byte) : parseByte (hexText 2 v.toNat) = some v := by
  rw [parseByte, parseDigits_hexText v.isLt, Option.map_some, BitVec.ofNat_toNat, BitVec.setWidth_eq]

theorem parseDecimal_zero_point (digits : List Char) :
    parseDecimal ('0' :: '.' :: digits) = parseDigits 10 decDigit digits := rfl

theorem parseDecimal_decimalText {v : Nat} (hv : v < 10 ^ 16) :
    parseDecimal (decimalText v) = some v := by
  rw [decimalText, parseDecimal_zero_point, parseDigits_decDigitsText hv]

/-! ## Comma-separated values (R210) -/

theorem splitCommas_of_not_mem {t : List Char} (h : ',' ∉ t) (field : List Char) :
    splitCommas field t = [field ++ t] := by
  induction t generalizing field with
  | nil => simp [splitCommas]
  | cons c cs ih =>
    obtain ⟨hc, hcs⟩ := List.ne_and_not_mem_of_not_mem_cons h
    rw [splitCommas, if_neg (Ne.symm hc), ih hcs]
    simp

theorem splitCommas_append_comma {t : List Char} (h : ',' ∉ t) (field rest : List Char) :
    splitCommas field (t ++ ',' :: rest) = (field ++ t) :: splitCommas [] rest := by
  induction t generalizing field with
  | nil => simp [splitCommas]
  | cons c cs ih =>
    obtain ⟨hc, hcs⟩ := List.ne_and_not_mem_of_not_mem_cons h
    rw [List.cons_append, splitCommas, if_neg (Ne.symm hc), ih hcs]
    simp

theorem splitCommas_commaText {ts : List (List Char)} (hne : ts ≠ []) (h : ∀ t ∈ ts, ',' ∉ t) :
    splitCommas [] (commaText ts) = ts := by
  fun_induction commaText ts with
  | case1 => exact absurd rfl hne
  | case2 t => exact splitCommas_of_not_mem (h t (by simp)) []
  | case3 t u ts ih =>
    obtain ⟨ht, hts⟩ := List.forall_mem_cons.1 h
    rw [splitCommas_append_comma ht, ih (by simp) hts, List.nil_append]

theorem commaText_ne_nil {ts : List (List Char)} (hne : ts ≠ []) (h : ∀ t ∈ ts, t ≠ []) :
    commaText ts ≠ [] := by
  fun_induction commaText ts with
  | case1 => exact absurd rfl hne
  | case2 t => exact h t (by simp)
  | case3 t u ts => simp

theorem feed_not_mem_commaText {ts : List (List Char)} (h : ∀ t ∈ ts, '\n' ∉ t) :
    '\n' ∉ commaText ts := by
  fun_induction commaText ts with
  | case1 => exact List.not_mem_nil
  | case2 t => exact h t (by simp)
  | case3 t u ts ih =>
    obtain ⟨ht, hts⟩ := List.forall_mem_cons.1 h
    simp [ht, ih hts]

/-! ## Lines (R210, R211) -/

/-- A line of a dump before its line feed. -/
def lineOf (key : String) (value : List Char) : List Char := key.toList ++ ':' :: value

theorem textLine_eq (key : String) (value : List Char) :
    textLine key value = lineOf key value ++ ['\n'] := rfl

theorem valueOf_lineOf (key : String) (value : List Char) :
    valueOf key (lineOf key value) = some value := by
  have hsplit : lineOf key value = (key.toList ++ [':']) ++ value := by simp [lineOf]
  rw [valueOf, hsplit]
  simp

section fields
variable {α : Type} {field : List Char → Option α} {render : α → List Char} {vs : List α}

theorem mapM_map_render (hread : ∀ v ∈ vs, field (render v) = some v) :
    (vs.map render).mapM field = some vs := by
  induction vs with
  | nil => rfl
  | cons v vs ih =>
    obtain ⟨hv, hvs⟩ := List.forall_mem_cons.1 hread
    simp [hv, ih hvs]

/-- The values of a line read back if each of its fields does. -/
theorem parseFields_lineOf (key : String) (hfield : ReadsFields field)
    (hread : ∀ v ∈ vs, field (render v) = some v) :
    parseFields key field (lineOf key (commaText (vs.map render))) = some vs := by
  have htexts : ∀ t ∈ vs.map render, t ≠ [] ∧ ',' ∉ t ∧ '\n' ∉ t :=
    List.forall_mem_map.2 fun v hv => hfield _ v (hread v hv)
  rw [parseFields, valueOf_lineOf, Option.bind_eq_bind, Option.bind_some]
  cases hvs : vs with
  | nil => rfl
  | cons v rest =>
    rw [← hvs]
    have hne : vs.map render ≠ [] := by simp [hvs]
    rw [if_neg (commaText_ne_nil hne fun t ht => (htexts t ht).1),
      splitCommas_commaText hne fun t ht => (htexts t ht).2.1, mapM_map_render hread]

theorem feed_not_mem_lineOf {key : String} {value : List Char} (hkey : '\n' ∉ key.toList)
    (hvalue : '\n' ∉ value) : '\n' ∉ lineOf key value := by
  simp [lineOf, hkey, hvalue]

theorem feed_not_mem_fields (hfield : ReadsFields field)
    (hread : ∀ v ∈ vs, field (render v) = some v) : '\n' ∉ commaText (vs.map render) :=
  feed_not_mem_commaText (List.forall_mem_map.2 fun v hv => (hfield _ v (hread v hv)).2.2)

end fields

theorem splitLines_append_feed {t : List Char} (h : '\n' ∉ t) (line rest : List Char) :
    splitLines line (t ++ '\n' :: rest) = (line ++ t) :: splitLines [] rest := by
  induction t generalizing line with
  | nil => simp [splitLines]
  | cons c cs ih =>
    obtain ⟨hc, hcs⟩ := List.ne_and_not_mem_of_not_mem_cons h
    rw [List.cons_append, splitLines, if_neg (Ne.symm hc), ih hcs]
    simp

/-- Lines without a line feed of their own read back from their text. -/
theorem splitLines_flatMap {lines : List (List Char)} (h : ∀ l ∈ lines, '\n' ∉ l) :
    splitLines [] (lines.flatMap (· ++ ['\n'])) = lines := by
  induction lines with
  | nil => rfl
  | cons l lines ih =>
    obtain ⟨hl, hlines⟩ := List.forall_mem_cons.1 h
    rw [List.flatMap_cons, List.append_assoc, List.singleton_append, splitLines_append_feed hl,
      ih hlines, List.nil_append]

/-! ## State blocks (R201, R210) -/

/-- The words of each part of a payload, by its first flit `N` (R201). -/
def payloadWidth (payload : List Word) : Nat := wordCount (payload.headD 0).toNat

/-- Part `k` of a payload: the buffer, then the six arrays (R201). -/
def payloadPart (payload : List Word) (k : Nat) : List Word :=
  (payload.drop (1 + k * payloadWidth payload)).take (payloadWidth payload)

/-- Cursor `k` of a payload, after the seven parts (R201). -/
def payloadCursor (payload : List Word) (k : Nat) : Word :=
  payload.getD (1 + 7 * payloadWidth payload + k) 0

/-- A list of flits that READ_STATE could answer, by its length and its first flit (R201). -/
structure IsStatePayload (payload : List Word) : Prop where
  length_eq : payload.length = 3 + 7 * payloadWidth payload
  size_eq : (payload.headD 0).toNat = 8 * payloadWidth payload

/-- The lines of a part, before their line feeds (R210, R211). -/
def partLines : DumpPart → List (List Char)
  | .block payload =>
    [lineOf "v_state_u8" (bytesText ((payloadPart payload 0).flatMap (unpackBytes 8))),
      lineOf "v_x_mult" (wordsText (payloadPart payload 1)),
      lineOf "v_a_mult" (wordsText (payloadPart payload 2)),
      lineOf "v_b_mult" (wordsText (payloadPart payload 3)),
      lineOf "v_x_xor" (wordsText (payloadPart payload 4)),
      lineOf "v_a_xor" (wordsText (payloadPart payload 5)),
      lineOf "v_b_xor" (wordsText (payloadPart payload 6)),
      lineOf "idx_values_mult" (decText (payloadCursor payload 0).toNat),
      lineOf "idx_values_xor" (decText (payloadCursor payload 1).toNat)]
  | .words values => [lineOf "v_vec_u64" (wordsText values)]
  | .floats values => [lineOf "v_vec_f64" (commaText (values.map decimalText))]

theorem partText_eq_flatMap (part : DumpPart) :
    partText part = (partLines part).flatMap (· ++ ['\n']) := by
  cases part with
  | block payload =>
    simp only [partLines, List.flatMap_cons, List.flatMap_nil, List.append_nil, ← textLine_eq,
      ← List.append_assoc]
    rfl
  | words values => exact (List.append_nil _).symm
  | floats values => exact (List.append_nil _).symm

theorem dumpText_eq_flatMap (parts : List DumpPart) :
    dumpText parts = (parts.flatMap partLines).flatMap (· ++ ['\n']) := by
  rw [dumpText, List.flatMap_assoc]
  exact congrArg parts.flatMap (funext partText_eq_flatMap)

/-- Whole flits read back from their bytes (R202). -/
theorem flitsOfSeed_flatMap_unpackBytes (flits : List Word) :
    flitsOfSeed flits.length (flits.flatMap (unpackBytes 8)) = flits := by
  induction flits with
  | nil => rfl
  | cons f flits ih =>
    have htake : (unpackBytes 8 f ++ flits.flatMap (unpackBytes 8)).take 8 = unpackBytes 8 f :=
      List.take_left' (unpackBytes_length f)
    have hdrop : (unpackBytes 8 f ++ flits.flatMap (unpackBytes 8)).drop 8 =
        flits.flatMap (unpackBytes 8) := List.drop_left' (unpackBytes_length f)
    rw [List.flatMap_cons, List.length_cons, flitsOfSeed, htake, hdrop, ih]
    exact congrArg (· :: flits) (packBytes_unpackBytes (n := 8) f)

theorem payloadPart_append_drop (payload : List Word) (k : Nat) :
    payloadPart payload k ++ payload.drop (1 + (k + 1) * payloadWidth payload) =
      payload.drop (1 + k * payloadWidth payload) := by
  have hrest : payload.drop (1 + (k + 1) * payloadWidth payload) =
      (payload.drop (1 + k * payloadWidth payload)).drop (payloadWidth payload) := by
    rw [List.drop_drop, Nat.succ_mul, Nat.add_assoc]
  rw [payloadPart, hrest, List.take_append_drop]

namespace IsStatePayload
variable {payload : List Word}

theorem of_width {w : Nat} (hlen : payload.length = 3 + 7 * w)
    (hsize : (payload.headD 0).toNat = 8 * w) : IsStatePayload payload := by
  have hw : payloadWidth payload = w := by rw [payloadWidth, wordCount]; omega
  exact ⟨hw.symm ▸ hlen, hw.symm ▸ hsize⟩

theorem cursors_eq_drop (h : IsStatePayload payload) :
    [payloadCursor payload 0, payloadCursor payload 1] =
      payload.drop (1 + 7 * payloadWidth payload) := by
  have hlen := h.length_eq
  simp only [payloadCursor]
  generalize payloadWidth payload = w at hlen
  rw [List.drop_eq_getElem_cons (by omega), List.drop_eq_getElem_cons (by omega),
    List.drop_of_length_le (by omega), List.getD_eq_getElem _ _ (by omega),
    List.getD_eq_getElem _ _ (by omega)]
  rfl

/-- A READ_STATE payload is its size, its seven parts and its two cursors (R201). -/
theorem eq_parts (h : IsStatePayload payload) :
    payload.headD 0 :: payloadPart payload 0 ++ payloadPart payload 1 ++ payloadPart payload 2
      ++ payloadPart payload 3 ++ payloadPart payload 4 ++ payloadPart payload 5
      ++ payloadPart payload 6 ++ [payloadCursor payload 0, payloadCursor payload 1] = payload := by
  simp only [List.cons_append, List.append_assoc, h.cursors_eq_drop, payloadPart_append_drop]
  cases payload with
  | nil => exact absurd h.length_eq (by rw [List.length_nil]; omega)
  | cons n rest => simp

theorem length_buffer (h : IsStatePayload payload) :
    (payloadPart payload 0).length = payloadWidth payload := by
  have hlen := h.length_eq
  simp only [payloadPart, List.length_take, List.length_drop]
  omega

theorem length_bytes (h : IsStatePayload payload) :
    ((payloadPart payload 0).flatMap (unpackBytes 8)).length = (payload.headD 0).toNat := by
  rw [flatMap_unpackBytes_length, h.length_buffer, h.size_eq]

/-- The buffer part reads back from its bytes (R202). -/
theorem flitsOfSeed_bytes (h : IsStatePayload payload) :
    flitsOfSeed (wordCount (payload.headD 0).toNat) ((payloadPart payload 0).flatMap (unpackBytes 8)) =
      payloadPart payload 0 := by
  rw [← payloadWidth, ← h.length_buffer]
  exact flitsOfSeed_flatMap_unpackBytes _

end IsStatePayload

theorem parseWords_lineOf (key : String) (ws : List Word) :
    parseFields key parseWord (lineOf key (wordsText ws)) = some ws :=
  parseFields_lineOf key readsFields_parseWord fun v _ => parseWord_hexText v

theorem parseBytes_lineOf (key : String) (bs : List Byte) :
    parseFields key parseByte (lineOf key (bytesText bs)) = some bs :=
  parseFields_lineOf key readsFields_parseByte fun v _ => parseByte_hexText v

theorem parseCursor_lineOf (key : String) (v : Word) :
    parseCursor key (lineOf key (decText v.toNat)) = some v := by
  rw [parseCursor, valueOf_lineOf, Option.bind_eq_bind, Option.bind_some, parseDigits_decText,
    Option.map_some, BitVec.ofNat_toNat, BitVec.setWidth_eq]

/-! ## Dumps (R214) -/

/-- The parts whose text states their values: a state block of a READ_STATE payload, a float below 1
(R201, R211). -/
def DumpPart.Renders : DumpPart → Prop
  | .block payload => IsStatePayload payload
  | .words _ => True
  | .floats values => ∀ v ∈ values, v < 10 ^ 16

theorem feed_not_mem_wordsText (ws : List Word) : '\n' ∉ wordsText ws :=
  feed_not_mem_fields readsFields_parseWord fun v _ => parseWord_hexText v

theorem feed_not_mem_bytesText (bs : List Byte) : '\n' ∉ bytesText bs :=
  feed_not_mem_fields readsFields_parseByte fun v _ => parseByte_hexText v

theorem feed_not_mem_decText (v : Nat) : '\n' ∉ decText v :=
  not_mem_of_parseDigits (parseDigits_decText v) (by decide)

theorem feed_not_mem_partLines {part : DumpPart} (h : part.Renders) :
    ∀ l ∈ partLines part, '\n' ∉ l := by
  cases part with
  | block payload =>
    have harray (key : String) (hkey : '\n' ∉ key.toList) (k : Nat) :
        '\n' ∉ lineOf key (wordsText (payloadPart payload k)) :=
      feed_not_mem_lineOf hkey (feed_not_mem_wordsText _)
    simp only [partLines, List.forall_mem_cons]
    exact ⟨feed_not_mem_lineOf (by decide) (feed_not_mem_bytesText _),
      harray _ (by decide) 1, harray _ (by decide) 2, harray _ (by decide) 3,
      harray _ (by decide) 4, harray _ (by decide) 5, harray _ (by decide) 6,
      feed_not_mem_lineOf (by decide) (feed_not_mem_decText _),
      feed_not_mem_lineOf (by decide) (feed_not_mem_decText _), List.forall_mem_nil _⟩
  | words values =>
    exact List.forall_mem_singleton.2 (feed_not_mem_lineOf (by decide) (feed_not_mem_wordsText _))
  | floats values =>
    exact List.forall_mem_singleton.2 (feed_not_mem_lineOf (by decide)
      (feed_not_mem_fields readsFields_parseDecimal fun v hv => parseDecimal_decimalText (h v hv)))

theorem parseLines_cons_of_output {line : List Char} {part : DumpPart}
    (h : parseOutput line = some part) (rest : List (List Char)) :
    parseLines (line :: rest) = (parseLines rest).map (part :: ·) := by
  rw [parseLines.eq_def]
  simp only [h]

theorem parseLines_cons_of_block {l0 l1 l2 l3 l4 l5 l6 l7 l8 : List Char} {part : DumpPart}
    (hout : parseOutput l0 = none) (h : parseBlock l0 l1 l2 l3 l4 l5 l6 l7 l8 = some part)
    (later : List (List Char)) :
    parseLines (l0 :: l1 :: l2 :: l3 :: l4 :: l5 :: l6 :: l7 :: l8 :: later) =
      (parseLines later).map (part :: ·) := by
  rw [parseLines.eq_def]
  simp only [hout, h, Option.bind_eq_bind, Option.bind_some]

/-- The nine lines of a state block read back as its payload (R210). -/
theorem parseLines_block {payload : List Word} (h : IsStatePayload payload) (rest : List (List Char)) :
    parseLines (partLines (.block payload) ++ rest) =
      (parseLines rest).map (.block payload :: ·) := by
  refine parseLines_cons_of_block rfl ?_ rest
  simp only [parseBlock, parseBytes_lineOf, parseWords_lineOf, parseCursor_lineOf,
    Option.bind_eq_bind, Option.bind_some, Option.pure_def, h.length_bytes, h.flitsOfSeed_bytes,
    BitVec.ofNat_toNat, BitVec.setWidth_eq, h.eq_parts]

/-- The lines of one part, and then whatever follows it (R214). -/
theorem parseLines_partLines_append {part : DumpPart} (h : part.Renders) (rest : List (List Char)) :
    parseLines (partLines part ++ rest) = (parseLines rest).map (part :: ·) := by
  cases part with
  | block payload => exact parseLines_block h rest
  | words values =>
    refine parseLines_cons_of_output ?_ rest
    rw [parseOutput, parseWords_lineOf]
  | floats values =>
    have hwords (value : List Char) :
        parseFields "v_vec_u64" parseWord (lineOf "v_vec_f64" value) = none := rfl
    refine parseLines_cons_of_output ?_ rest
    rw [parseOutput, hwords, parseFields_lineOf "v_vec_f64" readsFields_parseDecimal fun v hv =>
      parseDecimal_decimalText (h v hv), Option.map_some]

theorem parseLines_flatMap_partLines {parts : List DumpPart} (h : ∀ part ∈ parts, part.Renders) :
    parseLines (parts.flatMap partLines) = some parts := by
  induction parts with
  | nil => rfl
  | cons part parts ih =>
    obtain ⟨hpart, hparts⟩ := List.forall_mem_cons.1 h
    rw [List.flatMap_cons, parseLines_partLines_append hpart, ih hparts, Option.map_some]

theorem parseDump_dumpText {parts : List DumpPart} (h : ∀ part ∈ parts, part.Renders) :
    parseDump (dumpText parts) = some parts := by
  have hfeeds : ∀ l ∈ parts.flatMap partLines, '\n' ∉ l := by
    intro l hl
    obtain ⟨part, hpart, hl⟩ := List.mem_flatMap.1 hl
    exact feed_not_mem_partLines (h part hpart) l hl
  refine parseDump_eq_some.2 ⟨?_, rfl⟩
  rw [dumpText_eq_flatMap, splitLines_flatMap hfeeds, parseLines_flatMap_partLines h]

/-- Settles O57. -/
theorem dumpParsesBackToItsPayload : Obligations.DumpParsesBackToItsPayload := by
  refine ⟨fun _ _ h => (parseDump_eq_some.1 h).2, fun parts hblocks hfloats => ?_⟩
  refine parseDump_dumpText fun part hpart => ?_
  cases part with
  | block payload =>
    obtain ⟨w, -, hlen, hsize⟩ := hblocks payload hpart
    exact .of_width hlen hsize
  | words values => trivial
  | floats values => exact hfloats values hpart

end Sys2Proof.Machine

/-! PROOF. Exceptions, reset and hazards (60_exceptions.md, 70_reset_and_hazards.md): how a command can end
(R246), where the lifecycle stops one (R243), that every step answers (R240, R247), and what an unfinished
frame and a reset leave (R249, R270, R272, R279). -/

namespace Sys2Proof.Machine

/-! ## How a command ends (R85, R246) -/

/-- The two ways a frame run in `s` can end: an error, whose response is all it leaves, or a success,
where `u` is `s` after the command's writes, none of which is to the response port. -/
inductive FrameEnd (s : State) : State → Prop
  | failed {c : Code} (hc : c ≠ .ok) : FrameEnd s (respond c [] s)
  | succeeded {u : State} (payload : List Word) (hu : u.respOut = s.respOut) :
      FrameEnd s (respond .ok payload u)

theorem extractWith_frameEnd {render : Word → Word} {amount : Word} {s t : State}
    (h : extractWith render amount s = .next t) : FrameEnd s t := by
  rcases extractWith_eq_next.1 h with ⟨-, rfl⟩ | ⟨-, -, rfl⟩ | ⟨-, -, words, c, -, rfl⟩
  · exact .failed nofun
  · exact .failed nofun
  · exact .succeeded _ rfl

theorem execConstruct_frameEnd {n : Word} {seed : List Byte} {s t : State}
    (h : execConstruct n seed s = .next t) : FrameEnd s t := by
  rcases constructWith_eq_next.1 h with ⟨-, rfl⟩ | ⟨-, -, rfl⟩ | ⟨-, -, -, rfl⟩ |
    ⟨-, -, -, u, hinit, rfl⟩
  · exact .failed nofun
  · exact .failed nofun
  · exact .failed nofun
  · obtain ⟨_, _, _, -, -, rfl⟩ := initialise_eq_ok.1 hinit
    exact .succeeded [] rfl

theorem exec_frameEnd {i : Instr} {s t : State} (h : exec i s = .next t) : FrameEnd s t := by
  cases i with
  | construct n seed => exact execConstruct_frameEnd h
  | extractU64 amount => exact extractWith_frameEnd h
  | extractF64 amount => exact extractWith_frameEnd h
  | checkpoint =>
    rcases execCheckpoint_eq_next.1 h with ⟨-, rfl⟩ | ⟨-, rfl⟩
    · exact .failed nofun
    · exact .succeeded [] rfl
  | restore =>
    rcases execRestore_eq_next.1 h with ⟨-, rfl⟩ | ⟨-, rfl⟩
    · exact .failed nofun
    · exact .succeeded [] rfl
  | readState =>
    rcases execReadState_eq_next.1 h with ⟨-, rfl⟩ | ⟨-, payload, -, rfl⟩
    · exact .failed nofun
    · exact .succeeded payload rfl
  | getStatus =>
    rw [execGetStatus_eq_next.1 h]
    exact .succeeded _ rfl

/-- A malformed frame is one that fails (R78, R246). -/
theorem runFrame_frameEnd {flits : List Word} {s t : State} (h : runFrame exec flits s = .next t) :
    FrameEnd s t := by
  rcases runFrame_eq_next.1 h with ⟨i, -, hexec⟩ | ⟨e, -, rfl⟩
  · exact exec_frameEnd hexec
  · exact .failed nofun

/-- No frame, malformed or not, reads or takes anything from the ports (R58, R61). -/
theorem runFrame_ignoresPorts (flits : List Word) : IgnoresPorts (runFrame exec flits) := by
  intro s t events sent h
  rcases runFrame_eq_next.1 h with ⟨i, hdecode, hexec⟩ | ⟨e, hdecode, rfl⟩
  · exact runFrame_eq_next.2 (.inl ⟨i, hdecode, commandsIgnoreThePorts i s t events sent hexec⟩)
  · exact runFrame_eq_next.2 (.inr ⟨e, hdecode, (respond_withPorts _ _ rfl events sent).symm⟩)

/-- Settles O14. -/
theorem failingCommandsWriteNothing : Obligations.FailingCommandsWriteNothing := by
  intro flits s t h
  refine ⟨(runFrame_ignoresPorts flits).cmdIn_eq h, ?_⟩
  cases runFrame_frameEnd h with
  | failed hc => exact .inl ⟨_, hc, rfl⟩
  | succeeded payload hu => exact .inr ⟨payload, by rw [respond_respOut, hu, respond_life]⟩

/-! ## Lifecycle gating (R243) -/

/-- In UNINIT what needs a bank is answered by InvalidState, with READY = 0. -/
theorem requireLife_ready_of_uninit {s : State} (hl : s.life = .uninit) (body : Result) :
    requireLife .ready s body = .next { s with respOut := s.respOut ++ [⟨0x004, true⟩] } := by
  rw [requireLife_of_ne (by rw [hl]; nofun), respond_nil_of_uninit hl]
  rfl

/-- In READY what needs an unconstructed block is answered by InvalidState, with READY = 1. -/
theorem requireLife_uninit_of_ready {s : State} (hl : s.life = .ready) (body : Result) :
    requireLife .uninit s body = .next { s with respOut := s.respOut ++ [⟨0x104, true⟩] } := by
  rw [requireLife_of_ne (by rw [hl]; nofun), respond_nil_of_ready hl]
  rfl

/-- In UNINIT a CONSTRUCT answers, and not with InvalidState (R100, R245). -/
theorem exec_construct_of_uninit {s : State} (hl : s.life = .uninit) (n : Word) (seed : List Byte) :
    ∃ c u, c ≠ .invalidState ∧ u.respOut = s.respOut ∧
      exec (.construct n seed) s = .next (respond c [] u) := by
  by_cases hs : seed = []
  · exact ⟨.invalidSeed, s, nofun, rfl, constructWith_eq_next.2 (.inr (.inl ⟨hl, hs, rfl⟩))⟩
  · cases hz : legalSize Config.params.nMax n.toNat with
    | false =>
      exact ⟨.invalidConfig, s, nofun, rfl,
        constructWith_eq_next.2 (.inr (.inr (.inl ⟨hl, hs, hz, rfl⟩)))⟩
    | true =>
      obtain ⟨m, hexec, -⟩ := exec_construct_of_legal hl hs hz
      exact ⟨.ok, _, nofun, constructed_respOut _ _ _ _ _, hexec⟩

/-- CODE 4 of R240 is InvalidState's alone. -/
theorem statusFlit_code_ne_four {c : Code} (hc : c ≠ .invalidState) (l : Life) :
    (statusFlit c l).extractLsb' 0 8 ≠ (4 : Byte) := by
  rw [statusFlit_code]
  cases c with
  | invalidState => exact absurd rfl hc
  | ok | invalidSeed | invalidConfig | invalidArgument => decide

/-- Settles O15: each of the five begins with the same check for READY. -/
theorem lifecycleGatesTheCommands : Obligations.LifecycleGatesTheCommands := by
  intro s
  refine ⟨fun hl amount => ?_, fun hl n seed => requireLife_uninit_of_ready hl _,
    fun hl n seed => ?_, ?_⟩
  · have hgate := requireLife_ready_of_uninit hl
    simp only [List.forall_mem_cons]
    exact ⟨hgate _, hgate _, hgate _, hgate _, hgate _, nofun⟩
  · obtain ⟨c, u, hc, hu, hexec⟩ := exec_construct_of_uninit hl n seed
    exact ⟨_, statusFlit c u.life, hexec, by rw [respond_respOut, hu]; rfl,
      statusFlit_code_ne_four hc _⟩
  · exact ⟨_, statusFlit .ok s.life, _, execGetStatus_eq_next.2 rfl, rfl, statusFlit_code _ _⟩

/-! ## Every step answers (R240, R247) -/

/-- In UNINIT every command answers: it is a CONSTRUCT that succeeds, or one response. -/
theorem exec_answers_of_uninit (i : Instr) {s : State} (hl : s.life = .uninit) :
    Answers (exec i s) := by
  rcases exec_of_uninit i s.cfgN with ⟨n, seed, rfl, hs, hz⟩ | ⟨c, payload, hanswer⟩
  · obtain ⟨m, hexec, -⟩ := exec_construct_of_legal hl hs hz
    exact ⟨_, hexec⟩
  · exact ⟨_, hanswer s hl rfl⟩

/-- In READY every command answers: no byte and no element it reads lacks a value. -/
theorem exec_answers_of_ready (i : Instr) {s : State} (hs : s.Inv) (hl : s.life = .ready) :
    Answers (exec i s) := by
  cases i with
  | construct n seed => exact ⟨_, requireLife_uninit_of_ready hl _⟩
  | extractU64 | extractF64 | readState | getStatus => exact exec_answers_of_draws trivial hs hl
  | checkpoint => exact ⟨_, checkpointCopiesCurIntoPrev s hl⟩
  | restore => exact ⟨_, restoreCopiesPrevIntoCur s hl⟩

theorem exec_answers (i : Instr) {s : State} (hs : s.Inv) : Answers (exec i s) := by
  cases hl : s.life with
  | uninit => exact exec_answers_of_uninit i hl
  | ready => exact exec_answers_of_ready i hs hl

theorem runFrame_answers (flits : List Word) {s : State} (hs : s.Inv) :
    Answers (runFrame exec flits s) := by
  cases hdecode : decodeFrame flits with
  | error e => exact ⟨_, runFrame_eq_next.2 (.inr ⟨e, hdecode, rfl⟩)⟩
  | ok i =>
    rw [runFrame_of_decodeFrame hdecode]
    exact exec_answers i hs

/-- A frame whose command a reset hits: the block is reset, and the flits sent before and the first `k` of
the response stay sent (R272; log 13, 14). -/
theorem step_of_aborted_frame {s u : State} {flits : List Word} {k : Nat} {later : List PortEvent}
    (hport : receive s.cmdIn = .frame flits (.abort k :: later))
    (hrun : runFrame exec flits { s with cmdIn := .abort k :: later } = .next u) :
    step s = .next (resetBlock later { u with respOut := u.respOut.take (s.respOut.length + k) }) :=
  step_eq_next.2 (.inr (.inr ⟨flits, _, u, hport, hrun, .inl ⟨k, later, rfl, rfl⟩⟩))

/-- Settles O50: the invariant makes the frame's command answer, and a step with no frame always does. -/
theorem stepAlwaysAnswersFromTheInvariant : Obligations.StepAlwaysAnswersFromTheInvariant := by
  intro s hs
  cases hport : receive s.cmdIn with
  | waiting => exact ⟨_, step_eq_next.2 (.inl ⟨hport, rfl⟩)⟩
  | reset rest => exact ⟨_, step_eq_next.2 (.inr (.inl ⟨rest, hport, rfl⟩))⟩
  | frame flits rest =>
    obtain ⟨u, hrun⟩ := runFrame_answers flits (hs.withPorts rest s.respOut)
    by_cases habort : ∃ k later, rest = .abort k :: later
    · obtain ⟨k, later, rfl⟩ := habort
      exact ⟨_, step_of_aborted_frame hport hrun⟩
    · exact ⟨u, (step_of_frame hport fun k later he => habort ⟨k, later, he⟩).trans hrun⟩

/-! ## Unfinished frames and reset (R249, R270, R272, R279) -/

/-- Flits without a LAST are the first flits of the frame that ends behind them (R70, R279). -/
theorem receive_no_last_append_frame (ds : List Word) {es : List PortEvent} {flits : List Word}
    {rest : List PortEvent} (h : receive es = .frame flits rest) :
    receive (ds.map (fun d => .flit d false) ++ es) = .frame (ds ++ flits) rest := by
  induction ds with
  | nil => exact h
  | cons d ds ih => rw [List.map_cons, List.cons_append, receive, ih, List.cons_append]

/-- A reset discards the flits without a LAST before it (R272). -/
theorem receive_no_last_append_reset (ds : List Word) (rest : List PortEvent) :
    receive (ds.map (fun d => .flit d false) ++ .reset :: rest) = .reset rest := by
  induction ds with
  | nil => rfl
  | cons d ds ih => rw [List.map_cons, List.cons_append, receive, ih]

/-- Settles O9. -/
theorem incompleteFrameWaitsForItsRest : Obligations.IncompleteFrameWaitsForItsRest := by
  refine ⟨fun s ds hport => ?_, fun ds flits rest hne => ?_⟩
  · exact step_eq_next.2 (.inl ⟨by rw [hport, receive_no_last], rfl⟩)
  · exact receive_no_last_append_frame ds (receive_frameEvents hne rest)

/-- Settles O10. -/
theorem resetDiscardsThePartialFrame : Obligations.ResetDiscardsThePartialFrame := by
  intro s ds rest hport
  have hreset : receive s.cmdIn = .reset rest := by rw [hport, receive_no_last_append_reset]
  exact ⟨_, step_eq_next.2 (.inr (.inl ⟨rest, hreset, rfl⟩)), rfl, rfl, fun _ => rfl, rfl, rfl⟩

/-- Settles O11: the frame's command answers, by the invariant, and only appends its response, of which
`k` flits are kept. -/
theorem resetDuringACommandWins : Obligations.ResetDuringACommandWins := by
  intro s flits k later hs hport
  obtain ⟨u, hrun⟩ := runFrame_answers flits (hs.withPorts (.abort k :: later) s.respOut)
  have hsent := (runFrame_ignoresPorts flits).respOut_eq hrun
  refine ⟨_, u, step_of_aborted_frame hport hrun, hrun, rfl, rfl, fun _ => rfl, rfl, ?_⟩
  calc
    u.respOut.take (s.respOut.length + k)
      = (s.respOut ++ newFlits s u).take (s.respOut.length + k) := congrArg _ hsent
    _ = s.respOut ++ (newFlits s u).take k := List.take_length_add_append k

end Sys2Proof.Machine
